-- ==== Sys2Proof/Word.lean ====
section
/-! DEFINITION. The vector types of the unit: the three value types (00_scope.md R6, R10) and the
port widths (00_scope.md R7). A SignedByte is a Byte whose bits are read in two's complement
(00_scope.md R11), so it needs no type of its own. -/

namespace Sys2Proof

/-- A Byte or SignedByte, and every 8-bit field of a command (R6, R7, R10, R11). -/
abbrev Byte := BitVec 8

/-- A Word (R6, R10), the type of operand `A`. -/
abbrev Word := BitVec 32

/-- The command bus, `CMD_W = 64` (R7). -/
abbrev Cmd := BitVec 64

/-- The result bus, `RES_W = 64` (R7). -/
abbrev ResBus := BitVec 64

/-- The error code, `ERR_W = 2` (R7). -/
abbrev ErrCode := BitVec 2

end Sys2Proof
end

