-- ==== Sys2Proof/Config.lean ====
section
/-! DEFINITION. What this hardware fixes (00_scope.md R8, R9 and the parameter table after R9) and
the values the spec leaves open, as constants without a body. `OOR_POLICY = REJECT` (R8) is not a
switch: the masking alternative is not implemented (93_implementation_defined.md U6). The widths
are in the types of Word.lean. -/

namespace Sys2Proof

/-- `AUX_PRESENT = 1` on this hardware (R9). The decoder, the operation function and the clock
edge take it as an argument, so the core-only unit can be spoken of too (log entry 6). -/
def Config.auxPresent : Bool := true

/-- `FIND_MSB_ZERO`: minus one as a SignedByte (43_aux_bit_ops.md R166; log entry 7). -/
def Config.findMsbZero : Byte := 0xFF#8

/-- FREE VALUE: what `RES` holds at power-up, before the first reset (10_state.md R33; log entry 5). -/
opaque Config.powerUpRes : ResBus

/-- FREE VALUE: what `ERR` holds at power-up, `2'b11` included (R33; log entry 5). -/
opaque Config.powerUpErr : ErrCode

/-- FREE VALUE: what `RVALID` holds at power-up (R33; log entry 5). -/
opaque Config.powerUpRvalid : Bool

/-- FREE VALUE: what an `idle` or `reset` line leaves on the command bus, where the bus "may hold
anything" (30_encoding.md R71, R76; 95_test_vectors.md section 3; log entry 9). -/
opaque Config.unusedBus : Cmd

end Sys2Proof
end

