-- ==== Sys2Proof/Syntax.lean ====
section
/-! DEFINITION. The commands, one constructor per row of opcode_table.json, each with exactly the
operands 30_encoding.md R62 says it reads, in the source's signature order (R75). Ignored fields
(R70) are no part of a command. -/

namespace Sys2Proof

inductive Instr where
  -- core group (30_encoding.md R64)
  | setBit (x pos : Byte)
  | clearBit (x pos : Byte)
  | toggleBit (x pos : Byte)
  | getBitStatus (x pos : Byte)
  | isEven (x : Byte)
  | countSetBits (x : Byte)
  | isPowerOf2 (x : Byte)
  | littleToBigEndian (w : Word)
  | setBits (dest p n src : Byte)
  | swapNibbles (x : Byte)
  -- auxiliary group (30_encoding.md R65)
  | formatBinary (x : Byte)
  | add (x y : Byte)
  | subtract (x y : Byte)
  | xorWithoutOperator (x y : Byte)
  | sizeOfUsingBitwise
  | multiplyByN (x y : Byte)
  | isNthBitOn (w : Word) (pos : Byte)
  | swap (x y : Byte)
  | clearLsb (x : Byte)
  | findMsb (x : Byte)
deriving DecidableEq, Repr

end Sys2Proof
end

