-- ==== Sys2Proof/WellFormed.lean ====
section
/-! DEFINITION. Which commands the unit implements. Every operand pattern fits its field by type
(30_encoding.md R66), and an out-of-range position is a command that answers an error, not an
ill-formed one (R203); so the one check is that a command of the auxiliary group needs
`AUX_PRESENT = 1` (00_scope.md R9). Log entry 13. -/

namespace Sys2Proof

/-- The auxiliary group of 00_scope.md R2. -/
def Instr.isAux : Instr → Bool
  | .setBit _ _ => false
  | .clearBit _ _ => false
  | .toggleBit _ _ => false
  | .getBitStatus _ _ => false
  | .isEven _ => false
  | .countSetBits _ => false
  | .isPowerOf2 _ => false
  | .littleToBigEndian _ => false
  | .setBits _ _ _ _ => false
  | .swapNibbles _ => false
  | .formatBinary _ => true
  | .add _ _ => true
  | .subtract _ _ => true
  | .xorWithoutOperator _ _ => true
  | .sizeOfUsingBitwise => true
  | .multiplyByN _ _ => true
  | .isNthBitOn _ _ => true
  | .swap _ _ => true
  | .clearLsb _ => true
  | .findMsb _ => true

/-- Implemented by a unit built with the given `AUX_PRESENT` (R9). -/
def Instr.wellFormedWith (aux : Bool) (i : Instr) : Bool :=
  aux || !i.isAux

/-- Implemented by this hardware. -/
def Instr.wellFormed (i : Instr) : Bool :=
  i.wellFormedWith Config.auxPresent

end Sys2Proof
end

