-- ==== Sys2Proof/Decode.lean ====
section
/-! DEFINITION. The decoder, total on the 2^64 command words and refusing by name, and the encoder,
both written from 30_encoding.md: the fields (R61), the operation map (R64, R65), the operands of
each operation (R62), the reserved codes (R72), the command value (R67) and its canonical form
(R70). -/

namespace Sys2Proof

/-- Why a word is no command: its operation code is reserved (R72). Safe: the unit answers such a
word with ILLEGAL_OP, it does not stop. -/
inductive DecodeError where
  | reservedOp (op : Byte)
deriving DecidableEq, Repr

/-! ## The fields (R61) -/

def opField (cmd : Cmd) : Byte := cmd.extractLsb' 0 8
def posField (cmd : Cmd) : Byte := cmd.extractLsb' 8 8
def nField (cmd : Cmd) : Byte := cmd.extractLsb' 16 8
def bField (cmd : Cmd) : Byte := cmd.extractLsb' 24 8
def aField (cmd : Cmd) : Word := cmd.extractLsb' 32 32

/-- `X = A[7:0] = cmd[39:32]`. -/
def xField (cmd : Cmd) : Byte := cmd.extractLsb' 32 8

/-! ## The decoder -/

/-- A code of the auxiliary group: reserved when the group is absent (R72). -/
def auxiliary (aux : Bool) (op : Byte) (i : Instr) : Except DecodeError Instr :=
  if aux then .ok i else .error (.reservedOp op)

/-- Selection by `OP` alone (R63), for a unit built with the given `AUX_PRESENT`. -/
def decodeWith (aux : Bool) (cmd : Cmd) : Except DecodeError Instr :=
  match opField cmd with
  | 0x00#8 => .ok (.setBit (xField cmd) (posField cmd))
  | 0x01#8 => .ok (.clearBit (xField cmd) (posField cmd))
  | 0x02#8 => .ok (.toggleBit (xField cmd) (posField cmd))
  | 0x03#8 => .ok (.getBitStatus (xField cmd) (posField cmd))
  | 0x04#8 => .ok (.isEven (xField cmd))
  | 0x05#8 => .ok (.countSetBits (xField cmd))
  | 0x06#8 => .ok (.isPowerOf2 (xField cmd))
  | 0x07#8 => .ok (.littleToBigEndian (aField cmd))
  | 0x08#8 => .ok (.setBits (xField cmd) (posField cmd) (nField cmd) (bField cmd))
  | 0x09#8 => .ok (.swapNibbles (xField cmd))
  | 0x10#8 => auxiliary aux 0x10#8 (.formatBinary (xField cmd))
  | 0x11#8 => auxiliary aux 0x11#8 (.add (xField cmd) (bField cmd))
  | 0x12#8 => auxiliary aux 0x12#8 (.subtract (xField cmd) (bField cmd))
  | 0x13#8 => auxiliary aux 0x13#8 (.xorWithoutOperator (xField cmd) (bField cmd))
  | 0x14#8 => auxiliary aux 0x14#8 .sizeOfUsingBitwise
  | 0x15#8 => auxiliary aux 0x15#8 (.multiplyByN (xField cmd) (bField cmd))
  | 0x16#8 => auxiliary aux 0x16#8 (.isNthBitOn (aField cmd) (posField cmd))
  | 0x17#8 => auxiliary aux 0x17#8 (.swap (xField cmd) (bField cmd))
  | 0x18#8 => auxiliary aux 0x18#8 (.clearLsb (xField cmd))
  | 0x19#8 => auxiliary aux 0x19#8 (.findMsb (xField cmd))
  | op => .error (.reservedOp op)

/-- The decoder of this hardware (R9: `AUX_PRESENT = 1`). -/
def decode (cmd : Cmd) : Except DecodeError Instr :=
  decodeWith Config.auxPresent cmd

/-! ## The encoder -/

/-- `cmd = {A, B, N, POS, OP}` (R67). -/
def packCmd (a : Word) (b n pos op : Byte) : Cmd :=
  a ++ b ++ n ++ pos ++ op

/-- A Byte operand in `A[7:0]`, `A[31:8]` zero: the canonical encoding (R70). -/
def byteInA (x : Byte) : Word := x.setWidth 32

/-- The operation code of a command (R64, R65). -/
def Instr.opcode : Instr → Byte
  | .setBit _ _ => 0x00#8
  | .clearBit _ _ => 0x01#8
  | .toggleBit _ _ => 0x02#8
  | .getBitStatus _ _ => 0x03#8
  | .isEven _ => 0x04#8
  | .countSetBits _ => 0x05#8
  | .isPowerOf2 _ => 0x06#8
  | .littleToBigEndian _ => 0x07#8
  | .setBits _ _ _ _ => 0x08#8
  | .swapNibbles _ => 0x09#8
  | .formatBinary _ => 0x10#8
  | .add _ _ => 0x11#8
  | .subtract _ _ => 0x12#8
  | .xorWithoutOperator _ _ => 0x13#8
  | .sizeOfUsingBitwise => 0x14#8
  | .multiplyByN _ _ => 0x15#8
  | .isNthBitOn _ _ => 0x16#8
  | .swap _ _ => 0x17#8
  | .clearLsb _ => 0x18#8
  | .findMsb _ => 0x19#8

/-- The canonical encoding (R70): each operand in the field R62 gives it, every ignored bit zero. -/
def encode (i : Instr) : Cmd :=
  match i with
  | .setBit x pos | .clearBit x pos | .toggleBit x pos | .getBitStatus x pos =>
      packCmd (byteInA x) 0 0 pos i.opcode
  | .isEven x | .countSetBits x | .isPowerOf2 x | .swapNibbles x
  | .formatBinary x | .clearLsb x | .findMsb x =>
      packCmd (byteInA x) 0 0 0 i.opcode
  | .littleToBigEndian w => packCmd w 0 0 0 i.opcode
  | .setBits dest p n src => packCmd (byteInA dest) src n p i.opcode
  | .add x y | .subtract x y | .xorWithoutOperator x y | .multiplyByN x y | .swap x y =>
      packCmd (byteInA x) y 0 0 i.opcode
  | .sizeOfUsingBitwise => packCmd 0 0 0 0 i.opcode
  | .isNthBitOn w pos => packCmd w 0 0 pos i.opcode

/-- The bits of the command word an operation looks at: `OP` and the fields R62 lists for it, the
arguments in the order of R67 (A, B, N, POS, OP). -/
def Instr.readMask : Instr → Cmd
  | .setBit _ _ => packCmd 0x000000FF 0 0 0xFF 0xFF
  | .clearBit _ _ => packCmd 0x000000FF 0 0 0xFF 0xFF
  | .toggleBit _ _ => packCmd 0x000000FF 0 0 0xFF 0xFF
  | .getBitStatus _ _ => packCmd 0x000000FF 0 0 0xFF 0xFF
  | .isEven _ => packCmd 0x000000FF 0 0 0 0xFF
  | .countSetBits _ => packCmd 0x000000FF 0 0 0 0xFF
  | .isPowerOf2 _ => packCmd 0x000000FF 0 0 0 0xFF
  | .littleToBigEndian _ => packCmd 0xFFFFFFFF 0 0 0 0xFF
  | .setBits _ _ _ _ => packCmd 0x000000FF 0xFF 0xFF 0xFF 0xFF
  | .swapNibbles _ => packCmd 0x000000FF 0 0 0 0xFF
  | .formatBinary _ => packCmd 0x000000FF 0 0 0 0xFF
  | .add _ _ => packCmd 0x000000FF 0xFF 0 0 0xFF
  | .subtract _ _ => packCmd 0x000000FF 0xFF 0 0 0xFF
  | .xorWithoutOperator _ _ => packCmd 0x000000FF 0xFF 0 0 0xFF
  | .sizeOfUsingBitwise => packCmd 0 0 0 0 0xFF
  | .multiplyByN _ _ => packCmd 0x000000FF 0xFF 0 0 0xFF
  | .isNthBitOn _ _ => packCmd 0xFFFFFFFF 0 0 0xFF 0xFF
  | .swap _ _ => packCmd 0x000000FF 0xFF 0 0 0xFF
  | .clearLsb _ => packCmd 0x000000FF 0 0 0 0xFF
  | .findMsb _ => packCmd 0x000000FF 0 0 0 0xFF

/-! ## The host's question about a table row -/

/-- The command the decoder reads from the word whose `nbits` low bits are `w` and whose other bits
are 0; opcode_table.json numbers the bits as `cmd[63:0]` does (log entry 15). -/
def decodeTableWord (nbits w : Nat) : Option Instr :=
  (decode (BitVec.ofNat 64 (w % 2 ^ nbits))).toOption

end Sys2Proof
end

