-- ==== Sys2Proof/Machine/Operands.lean ====
section
/-! DEFINITION. How operands are read and results are placed: the integer readings (00_scope.md R11),
byte lanes (R12), position and window checks (60_exceptions.md R203), the bit operations the
meanings share, and the result types with their places in `RES` (10_state.md R25, R27). -/

namespace Sys2Proof.Machine

/-! ## Readings and lanes -/

/-- The unsigned reading `u(v)` (R11). -/
abbrev u {w : Nat} (v : BitVec w) : Nat := v.toNat

/-- The two's-complement reading `s8(v) = u(v) - 256 * v[7]` (R11). -/
def s8 (v : Byte) : Int := (u v : Int) - 256 * (if v.getLsbD 7 then 1 else 0)

/-- `wrap8(v) = ((v + 128) mod 256) - 128`, `mod` non-negative (44_aux_arith_and_move.md R181). -/
def wrap8 (v : Int) : Int := (v + 128) % 256 - 128

/-- Byte lane `k`: bits `8k+7` down to `8k` (00_scope.md R12). -/
def lane {w : Nat} (v : BitVec w) (k : Nat) : Byte := v.extractLsb' (8 * k) 8

/-- The result-bus form of a narrower vector: zeros on the left (`zext_64`, R13; 10_state.md R27). -/
def zext64 {w : Nat} (v : BitVec w) : ResBus := v.setWidth 64

/-! ## Operand ranges -/

/-- "pos 0–7" (40_single_bit_ops.md R104). All eight bits of `POS` take part. -/
def posInByte (pos : Byte) : Bool := decide (u pos ≤ 7)

/-- "pos < 32" (43_aux_bit_ops.md R162). -/
def posInWord (pos : Byte) : Bool := decide (u pos ≤ 31)

/-- "`n ≤ p+1 ≤ 8`" (42_permute_and_field.md R141). -/
def windowInByte (p n : Byte) : Bool := decide (u p ≤ 7) && decide (u n ≤ u p + 1)

/-! ## Bit operations -/

/-- `8'h01 << p`. -/
def oneHot (p : Nat) : Byte := 0x01#8 <<< p

/-- `v[i]` as an integer. -/
def bitNat (v : Byte) (i : Nat) : Nat := (v.getLsbD i).toNat

/-- `popcount(v)` (00_scope.md R13): the sum of the eight bits (41_predicates_and_counts.md R121). -/
def popcount (v : Byte) : Nat :=
  bitNat v 0 + bitNat v 1 + bitNat v 2 + bitNat v 3 + bitNat v 4 + bitNat v 5 + bitNat v 6 + bitNat v 7

/-- `n` ones in bits `p` down to `s = p + 1 - n`, zeros elsewhere (42_permute_and_field.md R141);
read only where the window lies in the Byte. -/
def windowMask (p n : Nat) : Byte :=
  (((0x001#9 <<< n) - 0x001#9).setWidth 8) <<< (p + 1 - n)

/-- The Byte with its lowest set bit cleared, `v & (v - 1)` modulo 256 (R122, R165). -/
def withoutLowestOne (v : Byte) : Byte := v &&& (v - 0x01#8)

/-- The highest set bit among bits `k-1` down to 0, if one is set (43_aux_bit_ops.md R166). -/
def highestOneBelow (v : Byte) : Nat → Option Nat
  | 0 => none
  | k + 1 => if v.getLsbD k then some k else highestOneBelow v k

/-- The character for one bit: `8'h30 | zext_8(bit)`, ASCII (44_aux_arith_and_move.md R180). -/
def bitChar (b : Bool) : Byte := 0x30#8 ||| (BitVec.ofBool b).setWidth 8

/-! ## Result types -/

/-- The result types of 10_state.md R27. -/
inductive Result where
  /-- Boolean or one bit. -/
  | bit (b : Bool)
  /-- Byte. -/
  | byte (v : Byte)
  /-- SignedByte, as its two's-complement pattern. -/
  | signedByte (v : Byte)
  /-- Small integer. -/
  | small (v : Byte)
  /-- Word. -/
  | word (v : Word)
  /-- Byte pair: the new first and the new second value. -/
  | pair (first second : Byte)
  /-- Eight characters, `c0` the first of the string. -/
  | chars (c0 c1 c2 c3 c4 c5 c6 c7 : Byte)
deriving DecidableEq, Repr

/-- The placement of each result type in `RES`, zero-extended, signed results too (R27). -/
def Result.toBus : Result → ResBus
  | .bit b => zext64 (BitVec.ofBool b)
  | .byte v => zext64 v
  | .signedByte v => zext64 v
  | .small v => zext64 v
  | .word v => zext64 v
  | .pair first second => zext64 (second ++ first)
  | .chars c0 c1 c2 c3 c4 c5 c6 c7 => c7 ++ c6 ++ c5 ++ c4 ++ c3 ++ c2 ++ c1 ++ c0

end Sys2Proof.Machine
end

