-- ==== Sys2Proof/Machine/Flags.lean ====
section
/-! DEFINITION. The error codes and the answer of an operation. The unit has no flags and no
condition codes (10_state.md R29); `ERR` is the one status it keeps, and it describes the response
to one command (60_exceptions.md R200). -/

namespace Sys2Proof.Machine

/-- `ERR_OK = 2'b00` (R200). -/
def errOk : ErrCode := 0b00#2

/-- The two error causes (R200). -/
inductive ErrorCause where
  /-- The operation code is reserved (R202). -/
  | illegalOp
  /-- The position or the window of an existing operation is out of range (R203). -/
  | precond
deriving DecidableEq, Repr

/-- The code of each cause; `2'b11` is none's (10_state.md R26). -/
def ErrorCause.code : ErrorCause → ErrCode
  | .illegalOp => 0b01#2
  | .precond => 0b10#2

/-- What an operation answers: a result, or an error, which is the fault outcome for that command
and not a value (60_exceptions.md R214; log entry 4). -/
inductive Answer where
  | result (r : Result)
  | error (c : ErrorCause)
deriving DecidableEq, Repr

/-- `raise PRECOND()` unless the precondition holds (00_scope.md R13; R203). -/
def Answer.provided (ok : Bool) (r : Result) : Answer :=
  if ok then .result r else .error .precond

/-- The pair `(res, err)` of `respond` and `raise` (00_scope.md R13): an error drives zeros (R201). -/
def Answer.pair : Answer → ResBus × ErrCode
  | .result r => (r.toBus, errOk)
  | .error c => (0x0000000000000000#64, c.code)

/-- A response as a claim about commands may read it (60_exceptions.md R214): a result, or the fault
outcome with its code and no `RES`, which is not a result then (R201; log entry 4). -/
inductive Response where
  | result (res : ResBus)
  | fault (err : ErrCode)
deriving DecidableEq, Repr

/-- The reading of a pair `(res, err)`: `RES` counts only beside `ERR_OK` (R201). -/
def Response.ofPair (p : ResBus × ErrCode) : Response :=
  if p.2 = errOk then .result p.1 else .fault p.2

/-- The error code of a fault outcome. -/
def Response.errorCode : Response → Option ErrCode
  | .result _ => none
  | .fault c => some c

end Sys2Proof.Machine
end

