-- ==== Sys2Proof/Machine/State.lean ====
section
/-! DEFINITION. The state of the machine: the three registers of the unit (10_state.md R22) and the
host's inputs at the coming edges (70_reset_and_hazards.md R248), with the reasons a step could
stop. -/

namespace Sys2Proof.Machine

/-- The input values the host drives at one rising edge (10_state.md R23). Each is a definite 0 or 1
(70_reset_and_hazards.md R247; log entry 11). -/
structure EdgeInput where
  /-- `rst`. -/
  rst : Bool
  /-- `cmd_valid`. -/
  cmdValid : Bool
  /-- `cmd`, ignored when `cmdValid` is false (30_encoding.md R71). -/
  cmd : Cmd
deriving DecidableEq, Repr

/-- The complete architectural state is `res`, `err`, `rvalid` (R22). `inputs` is the model's own
field: what the host drives at the coming edges, the next edge first (R248; log entry 1). -/
structure State where
  /-- `RES`: the result of the most recent accepted command. -/
  res : ResBus
  /-- `ERR`: its error code. -/
  err : ErrCode
  /-- `RVALID`: true in the one cycle after an accepting edge. -/
  rvalid : Bool
  /-- The host's inputs at the coming edges. -/
  inputs : List EdgeInput
deriving DecidableEq, Repr

/-- The faults of the machine: NONE. "The step never stalls, traps or hangs" (10_state.md R24); the
spec's errors are responses (60_exceptions.md R201; log entry 4). Safe: nothing is cut short. -/
inductive Fault where
deriving DecidableEq, Repr

/-- The refusals of the machine. -/
inductive Refusal where
  /-- Raised by an arm of `exec` whose instruction has no meaning yet, by no other definition; no
  arm raises it now. Safe. -/
  | notModelled (mnemonic : String)
deriving DecidableEq, Repr

/-- The state after a reset step (10_state.md R32). No input is pending: a program of commands is
what the host presents, and the unit stores none (R21; log entry 3). -/
def State.reset : State where
  res := 0x0000000000000000#64
  err := 0b00#2
  rvalid := false
  inputs := []

/-- The unit at power-up, before any reset: the registers are unspecified (10_state.md R33; log
entry 5). -/
def State.powerUp (inputs : List EdgeInput) : State where
  res := Config.powerUpRes
  err := Config.powerUpErr
  rvalid := Config.powerUpRvalid
  inputs := inputs

end Sys2Proof.Machine
end

