-- ==== Sys2Proof/Machine/Ops.lean ====
section
/-! DEFINITION. The operations over the registers: the three kinds of edge (10_state.md R24), the
error response, which is all that "taking an exception" is on this unit (60_exceptions.md R201,
R208), the ports (10_state.md R23), and the host's queue of inputs. There is no return from an
error: nothing was saved (R209). -/

namespace Sys2Proof.Machine

/-! ## Writes of the registers -/

/-- `RES <- res; ERR <- err; RVALID <- 1`: the write of an accepting edge (10_state.md R24). -/
def State.respond (s : State) (res : ResBus) (err : ErrCode) : State :=
  { s with res := res, err := err, rvalid := true }

/-- An error response: `RES` is all zeros, `ERR` is the code, and nothing else happens (R201, R208). -/
def State.respondError (s : State) (c : ErrorCause) : State :=
  s.respond 0x0000000000000000#64 c.code

/-- The write that an answer makes at its accepting edge. -/
def State.commit (s : State) : Answer → State
  | .result r => s.respond r.toBus errOk
  | .error c => s.respondError c

/-- The reset step of the registers (10_state.md R24, R32). -/
def State.resetRegs (s : State) : State :=
  { s with res := 0x0000000000000000#64, err := errOk, rvalid := false }

/-- An idle edge: `RVALID` falls, `RES` and `ERR` keep their values (10_state.md R24). -/
def State.idle (s : State) : State :=
  { s with rvalid := false }

/-- The outcome of a command with this answer: a next state, whether it is a result or an error
(10_state.md R24; log entry 4). -/
def complete (a : Answer) (s : State) : Host.Outcome State Fault Refusal :=
  .next (s.commit a)

/-! ## The output ports (10_state.md R23): reads without side effect (R34) -/

def State.rspValid (s : State) : Bool := s.rvalid
def State.rspRes (s : State) : ResBus := s.res
def State.rspErr (s : State) : ErrCode := s.err

/-- Constant 1: a command is accepted at every edge (70_reset_and_hazards.md R241). -/
def State.cmdReady (_ : State) : Bool := true

/-- What a host may use as the result of the last command: nothing after an error (60_exceptions.md
R201, R214). -/
def State.rspResult (s : State) : Option ResBus :=
  if s.err = errOk then some s.res else none

/-- The response the outputs show, read as R214 allows. -/
def State.response (s : State) : Response :=
  .ofPair (s.rspRes, s.rspErr)

/-- `RES[7:0]`, what a host feeds back as a Byte operand (95_test_vectors.md P1). -/
def State.rspByte (s : State) : Byte := lane s.res 0

/-! ## The host's inputs -/

/-- An edge with `rst = 0`, `cmd_valid = 1`. -/
def commandEdge (cmd : Cmd) : EdgeInput := { rst := false, cmdValid := true, cmd := cmd }

/-- An edge with `rst = 0`, `cmd_valid = 0`; the bus may hold anything (log entry 9). -/
def idleEdge : EdgeInput := { rst := false, cmdValid := false, cmd := Config.unusedBus }

/-- An edge with `rst = 1` and no command; the bus may hold anything (log entry 9). -/
def resetEdge : EdgeInput := { rst := true, cmdValid := false, cmd := Config.unusedBus }

/-- The inputs of the next edge; once the host's sequence has ended it drives nothing, which is an
idle edge (70_reset_and_hazards.md R248; log entry 2). -/
def State.nextInput (s : State) : EdgeInput :=
  s.inputs.headD idleEdge

/-- The state with the next edge's inputs sampled and gone. -/
def State.dropInput (s : State) : State :=
  { s with inputs := s.inputs.tail }

/-- The state with the next edge's inputs set to `e` in place of what they were (log entry 3). -/
def State.present (s : State) (e : EdgeInput) : State :=
  { s with inputs := e :: s.inputs.tail }

end Sys2Proof.Machine
end

