-- ==== Sys2Proof/Machine/AuxArith.lean ====
section
/-! DEFINITION. Formatting, arithmetic and exchange (44_aux_arith_and_move.md). Arithmetic is modulo
256; overflow is neither trapped nor flagged (R184). -/

namespace Sys2Proof.Machine

/-- R180: eight characters, bit 7 first; character `k` goes to byte lane `k`. -/
def formatBinaryAnswer (x : Byte) : Answer :=
  .result (.chars
    (bitChar (x.getLsbD 7)) (bitChar (x.getLsbD 6)) (bitChar (x.getLsbD 5)) (bitChar (x.getLsbD 4))
    (bitChar (x.getLsbD 3)) (bitChar (x.getLsbD 2)) (bitChar (x.getLsbD 1)) (bitChar (x.getLsbD 0)))

def execFormatBinary (x : Byte) (s : State) : Host.Outcome State Fault Refusal :=
  complete (formatBinaryAnswer x) s

/-- R181: `X + B` modulo 256. -/
def addAnswer (x y : Byte) : Answer :=
  .result (.signedByte (x + y))

def execAdd (x y : Byte) (s : State) : Host.Outcome State Fault Refusal :=
  complete (addAnswer x y) s

/-- R182: `X - B` modulo 256. -/
def subtractAnswer (x y : Byte) : Answer :=
  .result (.signedByte (x - y))

def execSubtract (x y : Byte) (s : State) : Host.Outcome State Fault Refusal :=
  complete (subtractAnswer x y) s

/-- R183: the low 8 bits of the unsigned product. -/
def multiplyByNAnswer (x y : Byte) : Answer :=
  .result (.byte (x * y))

def execMultiplyByN (x y : Byte) (s : State) : Host.Outcome State Fault Refusal :=
  complete (multiplyByNAnswer x y) s

/-- R187: both new values, the first from the second operand and the second from the first. -/
def swapAnswer (x y : Byte) : Answer :=
  .result (.pair y x)

def execSwap (x y : Byte) (s : State) : Host.Outcome State Fault Refusal :=
  complete (swapAnswer x y) s

end Sys2Proof.Machine
end

