-- ==== Sys2Proof/Machine/AuxBit.lean ====
section
/-! DEFINITION. The auxiliary bit operations (43_aux_bit_ops.md). Positions are zero-based
(90_conflicts.md C1, C2). -/

namespace Sys2Proof.Machine

/-- R160: `(X | B) & (~X | ~B)`. -/
def xorWithoutOperatorAnswer (x y : Byte) : Answer :=
  .result (.byte ((x ||| y) &&& (~~~x ||| ~~~y)))

def execXorWithoutOperator (x y : Byte) (s : State) : Host.Outcome State Fault Refusal :=
  complete (xorWithoutOperatorAnswer x y) s

/-- R161: the constant 1. -/
def sizeOfUsingBitwiseAnswer : Answer :=
  .result (.small 0x01#8)

def execSizeOfUsingBitwise (s : State) : Host.Outcome State Fault Refusal :=
  complete sizeOfUsingBitwiseAnswer s

/-- R162: bit `pos` of a Word, `pos` 0 to 31. -/
def isNthBitOnAnswer (w : Word) (pos : Byte) : Answer :=
  .provided (posInWord pos) (.bit (w.getLsbD (u pos)))

def execIsNthBitOn (w : Word) (pos : Byte) (s : State) : Host.Outcome State Fault Refusal :=
  complete (isNthBitOnAnswer w pos) s

/-- R165: `X & (X - 1)`. -/
def clearLsbAnswer (x : Byte) : Answer :=
  .result (.byte (withoutLowestOne x))

def execClearLsb (x : Byte) (s : State) : Host.Outcome State Fault Refusal :=
  complete (clearLsbAnswer x) s

/-- R166: the index of the highest set bit; `FIND_MSB_ZERO` where none is set, which is no error. -/
def findMsbAnswer (x : Byte) : Answer :=
  match highestOneBelow x 8 with
  | some k => .result (.signedByte (BitVec.ofNat 8 k))
  | none => .result (.signedByte Config.findMsbZero)

def execFindMsb (x : Byte) (s : State) : Host.Outcome State Fault Refusal :=
  complete (findMsbAnswer x) s

end Sys2Proof.Machine
end

