-- ==== Sys2Proof/Machine/Permute.lean ====
section
/-! DEFINITION. Byte reversal, bit-field insertion and nibble exchange (42_permute_and_field.md). The
contracts are followed, not the two literals set aside (90_conflicts.md C3, C4). -/

namespace Sys2Proof.Machine

/-- R140: `{A[7:0], A[15:8], A[23:16], A[31:24]}`. -/
def littleToBigEndianAnswer (w : Word) : Answer :=
  .result (.word (lane w 0 ++ lane w 1 ++ lane w 2 ++ lane w 3))

def execLittleToBigEndian (w : Word) (s : State) : Host.Outcome State Fault Refusal :=
  complete (littleToBigEndianAnswer w) s

/-- The Byte of R141: bits `p` down to `p-n+1` of `dest` replaced by the low `n` bits of `src`. -/
def insertField (dest : Byte) (p n : Nat) (src : Byte) : Byte :=
  (dest &&& ~~~ windowMask p n) ||| ((src <<< (p + 1 - n)) &&& windowMask p n)

/-- R141. -/
def setBitsAnswer (dest p n src : Byte) : Answer :=
  .provided (windowInByte p n) (.byte (insertField dest (u p) (u n) src))

def execSetBits (dest p n src : Byte) (s : State) : Host.Outcome State Fault Refusal :=
  complete (setBitsAnswer dest p n src) s

/-- R142: `{X[3:0], X[7:4]}`. -/
def swapNibblesAnswer (x : Byte) : Answer :=
  .result (.byte (x.extractLsb' 0 4 ++ x.extractLsb' 4 4))

def execSwapNibbles (x : Byte) (s : State) : Host.Outcome State Fault Refusal :=
  complete (swapNibblesAnswer x) s

end Sys2Proof.Machine
end

