-- ==== Sys2Proof/Machine/Predicates.lean ====
section
/-! DEFINITION. Predicates and counts on a Byte (41_predicates_and_counts.md). None has a
precondition. -/

namespace Sys2Proof.Machine

/-- R120: `~X[0]`. -/
def isEvenAnswer (x : Byte) : Answer :=
  .result (.bit (!x.getLsbD 0))

def execIsEven (x : Byte) (s : State) : Host.Outcome State Fault Refusal :=
  complete (isEvenAnswer x) s

/-- R121: the number of set bits, 0 to 8. -/
def countSetBitsAnswer (x : Byte) : Answer :=
  .result (.small (BitVec.ofNat 8 (popcount x)))

def execCountSetBits (x : Byte) (s : State) : Host.Outcome State Fault Refusal :=
  complete (countSetBitsAnswer x) s

/-- R122: `X != 0 && (X & (X - 1)) == 0`. -/
def isPowerOf2Answer (x : Byte) : Answer :=
  .result (.bit (decide (x ≠ 0x00#8) && decide (withoutLowestOne x = 0x00#8)))

def execIsPowerOf2 (x : Byte) (s : State) : Host.Outcome State Fault Refusal :=
  complete (isPowerOf2Answer x) s

end Sys2Proof.Machine
end

