-- ==== Sys2Proof/Machine/SingleBit.lean ====
section
/-! DEFINITION. The single-bit operations on a Byte (40_single_bit_ops.md). All four share the
precondition `u(POS) <= 7` (R104). -/

namespace Sys2Proof.Machine

/-- R100: bit `pos` forced to 1. -/
def setBitAnswer (x pos : Byte) : Answer :=
  .provided (posInByte pos) (.byte (x ||| oneHot (u pos)))

def execSetBit (x pos : Byte) (s : State) : Host.Outcome State Fault Refusal :=
  complete (setBitAnswer x pos) s

/-- R101: bit `pos` forced to 0. -/
def clearBitAnswer (x pos : Byte) : Answer :=
  .provided (posInByte pos) (.byte (x &&& ~~~ oneHot (u pos)))

def execClearBit (x pos : Byte) (s : State) : Host.Outcome State Fault Refusal :=
  complete (clearBitAnswer x pos) s

/-- R102: bit `pos` flipped. -/
def toggleBitAnswer (x pos : Byte) : Answer :=
  .provided (posInByte pos) (.byte (x ^^^ oneHot (u pos)))

def execToggleBit (x pos : Byte) (s : State) : Host.Outcome State Fault Refusal :=
  complete (toggleBitAnswer x pos) s

/-- R103: the bit itself, 0 or 1. -/
def getBitStatusAnswer (x pos : Byte) : Answer :=
  .provided (posInByte pos) (.bit (x.getLsbD (u pos)))

def execGetBitStatus (x pos : Byte) (s : State) : Host.Outcome State Fault Refusal :=
  complete (getBitStatusAnswer x pos) s

end Sys2Proof.Machine
end

