-- ==== Sys2Proof/Machine/Dispatch.lean ====
section
/-! DEFINITION. What each command does at its accepting edge: one arm per constructor of Instr, each
one call of that instruction's own meaning. -/

namespace Sys2Proof.Machine

def exec (i : Instr) (s : State) : Host.Outcome State Fault Refusal :=
  match i with
  | .setBit x pos => Sys2Proof.Machine.execSetBit x pos s
  | .clearBit x pos => Sys2Proof.Machine.execClearBit x pos s
  | .toggleBit x pos => Sys2Proof.Machine.execToggleBit x pos s
  | .getBitStatus x pos => Sys2Proof.Machine.execGetBitStatus x pos s
  | .isEven x => Sys2Proof.Machine.execIsEven x s
  | .countSetBits x => Sys2Proof.Machine.execCountSetBits x s
  | .isPowerOf2 x => Sys2Proof.Machine.execIsPowerOf2 x s
  | .littleToBigEndian w => Sys2Proof.Machine.execLittleToBigEndian w s
  | .setBits dest p n src => Sys2Proof.Machine.execSetBits dest p n src s
  | .swapNibbles x => Sys2Proof.Machine.execSwapNibbles x s
  | .formatBinary x => Sys2Proof.Machine.execFormatBinary x s
  | .add x y => Sys2Proof.Machine.execAdd x y s
  | .subtract x y => Sys2Proof.Machine.execSubtract x y s
  | .xorWithoutOperator x y => Sys2Proof.Machine.execXorWithoutOperator x y s
  | .sizeOfUsingBitwise => Sys2Proof.Machine.execSizeOfUsingBitwise s
  | .multiplyByN x y => Sys2Proof.Machine.execMultiplyByN x y s
  | .isNthBitOn w pos => Sys2Proof.Machine.execIsNthBitOn w pos s
  | .swap x y => Sys2Proof.Machine.execSwap x y s
  | .clearLsb x => Sys2Proof.Machine.execClearLsb x s
  | .findMsb x => Sys2Proof.Machine.execFindMsb x s

end Sys2Proof.Machine
end

