-- ==== Sys2Proof/Machine/Edge.lean ====
section
/-! DEFINITION. One rising edge of `clk` (10_state.md R24), for a unit built with or without the
auxiliary group (00_scope.md R9). -/

namespace Sys2Proof.Machine

/-- An accepting edge: the command is decoded and executed; a reserved code answers ILLEGAL_OP and
is accepted like any other (30_encoding.md R72; 60_exceptions.md R202). -/
def accept (aux : Bool) (cmd : Cmd) (s : State) : Host.Outcome State Fault Refusal :=
  match decodeWith aux cmd with
  | .ok i => exec i s
  | .error (.reservedOp _) => .next (s.respondError .illegalOp)

/-- The registers at an edge with inputs `e`: reset wins over a command (R24). -/
def edge (aux : Bool) (e : EdgeInput) (s : State) : Host.Outcome State Fault Refusal :=
  if e.rst then .next s.resetRegs
  else if e.cmdValid then accept aux e.cmd s
  else .next s.idle

/-- The next edge: its inputs are sampled and used up. -/
def clockEdge (aux : Bool) (s : State) : Host.Outcome State Fault Refusal :=
  edge aux s.nextInput s.dropInput

end Sys2Proof.Machine
end

