-- ==== Sys2Proof/Machine/Step.lean ====
section
/-! DEFINITION. The step of this hardware, and how the host's program places a command for it. -/

namespace Sys2Proof.Machine

/-- One rising edge (10_state.md R24) of the unit with `AUX_PRESENT = 1` (00_scope.md R9). -/
def step (s : State) : Host.Outcome State Fault Refusal :=
  clockEdge Config.auxPresent s

/-- The state whose next edge presents the command with low bits `w` and all bits above `nbits`
zero: the unit fetches nothing (10_state.md R21), so this stands for the host driving the command
port at that edge (log entry 3). -/
def State.withFetchWord (s : State) (nbits w : Nat) : State :=
  s.present (commandEdge (BitVec.ofNat 64 (w % 2 ^ nbits)))

end Sys2Proof.Machine
end

