-- ==== Sys2Proof/Machine/Assembler.lean ====
section
/-! DEFINITION. The spec's own assembler notation (30_encoding.md R75, R76): one line, one edge.
Lexical points R75 leaves open are in log entry 10. -/

namespace Sys2Proof.Machine

/-! ## Numbers -/

/-- An argument as written (R75): an unsigned number, or a negative decimal one. -/
inductive Arg where
  | unsigned (n : Nat)
  | negative (n : Nat)
deriving DecidableEq, Repr

/-- The value of a digit. -/
def digitValue (c : Char) : Option Nat :=
  if '0' ≤ c ∧ c ≤ '9' then some (c.toNat - '0'.toNat)
  else if 'a' ≤ c ∧ c ≤ 'f' then some (c.toNat - 'a'.toNat + 10)
  else if 'A' ≤ c ∧ c ≤ 'F' then some (c.toNat - 'A'.toNat + 10)
  else none

/-- Digits to the end of the text, added to what was read before them. -/
def readDigits (base : Nat) : List Char → Nat → Option Nat
  | [], acc => some acc
  | c :: cs, acc =>
    match digitValue c with
    | some d => if d < base then readDigits base cs (acc * base + d) else none
    | none => none

/-- "decimal, hexadecimal (`0x`) or binary (`0b`)" (R75). -/
def readNumber : List Char → Option Nat
  | [] => none
  | ['0', 'x'] => none
  | ['0', 'b'] => none
  | '0' :: 'x' :: cs => readDigits 16 cs 0
  | '0' :: 'b' :: cs => readDigits 2 cs 0
  | c :: cs => readDigits 10 (c :: cs) 0

/-- An argument; a negative number is decimal (R75). -/
def readArg : List Char → Option Arg
  | ['-'] => none
  | '-' :: cs => (readDigits 10 cs 0).map .negative
  | cs => (readNumber cs).map .unsigned

/-! ## Arguments in their fields; one that does not fit is an assembly-time error (R75) -/

/-- A Byte, a position or a count: 0 to 255. -/
def Arg.asByte : Arg → Option Byte
  | .unsigned n => if n < 256 then some (BitVec.ofNat 8 n) else none
  | .negative _ => none

/-- A SignedByte: 0 to 255 as a pattern, or -128 to -1 as its two's complement. -/
def Arg.asSignedByte : Arg → Option Byte
  | .unsigned n => if n < 256 then some (BitVec.ofNat 8 n) else none
  | .negative n => if 1 ≤ n ∧ n ≤ 128 then some (BitVec.ofNat 8 (256 - n)) else none

/-- A Word: 0 to 2^32 - 1. -/
def Arg.asWord : Arg → Option Word
  | .unsigned n => if n < 2 ^ 32 then some (BitVec.ofNat 32 n) else none
  | .negative _ => none

/-- A command for `.cmd`: 0 to 2^64 - 1 (R76). -/
def Arg.asCmd : Arg → Option Cmd
  | .unsigned n => if n < 2 ^ 64 then some (BitVec.ofNat 64 n) else none
  | .negative _ => none

/-! ## The forms of R75 -/

def formX (f : Byte → Instr) : List Arg → Option Instr
  | [x] => x.asByte.map f
  | _ => none

def formXY (f : Byte → Byte → Instr) : List Arg → Option Instr
  | [x, y] => x.asByte.bind fun x => y.asByte.map (f x)
  | _ => none

def formSigned (f : Byte → Byte → Instr) : List Arg → Option Instr
  | [x, y] => x.asSignedByte.bind fun x => y.asSignedByte.map (f x)
  | _ => none

def formW (f : Word → Instr) : List Arg → Option Instr
  | [w] => w.asWord.map f
  | _ => none

def formWPos (f : Word → Byte → Instr) : List Arg → Option Instr
  | [w, pos] => w.asWord.bind fun w => pos.asByte.map (f w)
  | _ => none

def formField (f : Byte → Byte → Byte → Byte → Instr) : List Arg → Option Instr
  | [dest, p, n, src] =>
    dest.asByte.bind fun dest => p.asByte.bind fun p => n.asByte.bind fun n => src.asByte.map (f dest p n)
  | _ => none

def formNone (i : Instr) : List Arg → Option Instr
  | [] => some i
  | _ => none

/-- Mnemonics with their forms: the table of R75, then the five second names of R76. -/
def forms : List (String × (List Arg → Option Instr)) :=
  [("set_bit", formXY .setBit), ("clear_bit", formXY .clearBit), ("toggle_bit", formXY .toggleBit),
   ("get_bit_status", formXY .getBitStatus), ("is_even", formX .isEven),
   ("count_set_bits", formX .countSetBits), ("is_power_of_2", formX .isPowerOf2),
   ("little_to_big_endian", formW .littleToBigEndian), ("set_bits", formField .setBits),
   ("swap_nibbles", formX .swapNibbles)] ++
  [("format_binary", formX .formatBinary), ("add", formSigned .add), ("subtract", formSigned .subtract),
   ("xor_without_operator", formXY .xorWithoutOperator),
   ("size_of_using_bitwise", formNone .sizeOfUsingBitwise), ("multiply_by_n", formXY .multiplyByN),
   ("is_nth_bit_on", formWPos .isNthBitOn), ("swap", formXY .swap), ("clear_lsb", formX .clearLsb),
   ("find_msb", formX .findMsb)] ++
  [("population_count", formX .countSetBits), ("power_of_two_test", formX .isPowerOf2),
   ("byte_swap", formW .littleToBigEndian), ("bit_field_insert", formField .setBits),
   ("nibble_swap", formX .swapNibbles)]

/-- The command a mnemonic and its arguments stand for. -/
def assembleInstr (mnemonic : String) (args : List Arg) : Option Instr :=
  match forms.find? (fun f => f.1 == mnemonic) with
  | some f => f.2 args
  | none => none

/-- The edge a mnemonic and its arguments stand for: a command in its canonical encoding (R75), or
one of `.cmd`, `idle`, `reset` (R76). -/
def assembleWords (mnemonic : String) (args : List Arg) : Option EdgeInput :=
  if mnemonic = ".cmd" then
    match args with
    | [v] => v.asCmd.map commandEdge
    | _ => none
  else if mnemonic = "idle" then (if args.isEmpty then some idleEdge else none)
  else if mnemonic = "reset" then (if args.isEmpty then some resetEdge else none)
  else (assembleInstr mnemonic args).map fun i => commandEdge (encode i)

/-! ## Text -/

/-- Text without the spaces at its two ends. -/
def trimSpaces (cs : List Char) : List Char :=
  ((cs.dropWhile (· == ' ')).reverse.dropWhile (· == ' ')).reverse

/-- The pieces of a text between commas. -/
def splitCommas : List Char → List (List Char)
  | [] => [[]]
  | c :: cs =>
    match splitCommas cs with
    | [] => [[]]
    | p :: ps => if c = ',' then [] :: p :: ps else (c :: p) :: ps

/-- Every element's value, or none if one has none. -/
def readArgs : List (List Char) → Option (List Arg)
  | [] => some []
  | p :: ps => (readArg (trimSpaces p)).bind fun a => (readArgs ps).map (a :: ·)

/-- One line, `mnemonic arg1, arg2, ...` (R75). -/
def assembleLine (line : String) : Option EdgeInput :=
  let text := trimSpaces line.toList
  let mnemonic := String.ofList (text.takeWhile (· != ' '))
  let rest := trimSpaces (text.dropWhile (· != ' '))
  if rest.isEmpty then assembleWords mnemonic []
  else (readArgs (splitCommas rest)).bind (assembleWords mnemonic)

end Sys2Proof.Machine
end

