-- ==== Sys2Proof/Machine/OperationFunction.lean ====
section
/-! DEFINITION. The operation function `F : cmd -> (res, err)` (00_scope.md R14): the combinational
unit without its registers (70_reset_and_hazards.md R244). It reads no state. -/

namespace Sys2Proof.Machine

/-- What an implemented command answers, one arm of `F` each. -/
def answer : Instr → Answer
  | .setBit x pos => setBitAnswer x pos
  | .clearBit x pos => clearBitAnswer x pos
  | .toggleBit x pos => toggleBitAnswer x pos
  | .getBitStatus x pos => getBitStatusAnswer x pos
  | .isEven x => isEvenAnswer x
  | .countSetBits x => countSetBitsAnswer x
  | .isPowerOf2 x => isPowerOf2Answer x
  | .littleToBigEndian w => littleToBigEndianAnswer w
  | .setBits dest p n src => setBitsAnswer dest p n src
  | .swapNibbles x => swapNibblesAnswer x
  | .formatBinary x => formatBinaryAnswer x
  | .add x y => addAnswer x y
  | .subtract x y => subtractAnswer x y
  | .xorWithoutOperator x y => xorWithoutOperatorAnswer x y
  | .sizeOfUsingBitwise => sizeOfUsingBitwiseAnswer
  | .multiplyByN x y => multiplyByNAnswer x y
  | .isNthBitOn w pos => isNthBitOnAnswer w pos
  | .swap x y => swapAnswer x y
  | .clearLsb x => clearLsbAnswer x
  | .findMsb x => findMsbAnswer x

/-- The answer to any command word: a reserved code raises ILLEGAL_OP (60_exceptions.md R202), and
`OP` is checked before any precondition (R207). -/
def answerWord (aux : Bool) (cmd : Cmd) : Answer :=
  match decodeWith aux cmd with
  | .ok i => answer i
  | .error (.reservedOp _) => .error .illegalOp

/-- `F` (R14), for a unit built with the given `AUX_PRESENT` (R9). -/
def F (aux : Bool) (cmd : Cmd) : ResBus × ErrCode :=
  (answerWord aux cmd).pair

end Sys2Proof.Machine
end

