-- ==== Sys2Proof/Safety.lean ====
section
/-! DEFINITION. The terms in which claims about runs are stated: the states after each edge, the
responses the host can see, the commands a sequence of inputs makes the unit accept
(70_reset_and_hazards.md R248), the record of errors seen (60_exceptions.md R214), a safe run, and
the register values a unit that has been reset can show (10_state.md R26). -/

namespace Sys2Proof.Machine

/-- The states after each of `k` edges. -/
def statesAfter : Nat → State → List State
  | 0, _ => []
  | k + 1, s =>
    match step s with
    | .next t => t :: statesAfter k t
    | .fault _ => []
    | .refused _ => []

/-- The response a state shows as new, `rsp_valid = 1` (10_state.md R28), with no `RES` beside an error
(60_exceptions.md R214). -/
def State.newResponse (s : State) : Option Response :=
  if s.rspValid then some s.response else none

/-- The responses of the next `k` edges, in order, read by a host that loses none (R242). -/
def responses (k : Nat) (s : State) : List Response :=
  (statesAfter k s).filterMap State.newResponse

/-- Accepted at exactly the edges where `rst = 0` and `cmd_valid = 1` (10_state.md R24). -/
def EdgeInput.accepted (e : EdgeInput) : Option Cmd :=
  if !e.rst && e.cmdValid then some e.cmd else none

/-- The commands a sequence of inputs makes the unit accept, in order. -/
def acceptedCommands (es : List EdgeInput) : List Cmd :=
  es.filterMap EdgeInput.accepted

/-- An edge that neither resets nor presents a command. -/
def EdgeInput.isIdle (e : EdgeInput) : Bool := !e.rst && !e.cmdValid

/-- The errors among the next `k` edges' responses: the record R214 lets a model keep, since `ERR`
itself is overwritten. -/
def errorsSeen (k : Nat) (s : State) : List ErrCode :=
  (responses k s).filterMap Response.errorCode

/-- Every response of the next `k` edges had `ERR = ERR_OK`, the premise R214 asks for. -/
abbrev SafeRun (k : Nat) (s : State) : Prop := errorsSeen k s = []

/-- What a unit that was reset once can show: a code that names something, and zeros beside an error
(10_state.md R25, R26; 60_exceptions.md R201). -/
abbrev State.LegalResponse (s : State) : Prop :=
  s.err ≠ 0b11#2 ∧ (s.err ≠ 0b00#2 → s.res = 0#64)

end Sys2Proof.Machine
end

