-- ==== Sys2Proof/Certificates/Slice0/Obligations.lean ====
section
/-! DEFINITION. The statements for the provers, from the numbered rules of spec/. A statement about an
operation has two parts: every command word with the operation's code decodes to it with the fields
R62 names (all other bits free), and executing it gives the whole next state. The next state is
written as an update of the state before, so every register not named in it is unchanged; the unit
has no other registers, no flags and no memory (10_state.md R20, R29, R30; 20_memory.md R40). -/

open Sys2Proof Sys2Proof.Machine

/-! ## Single-bit operations -/

/-- R100. -/
def Obligations.SetBitForcesBitToOne : Prop :=
  (∀ cmd : Cmd, cmd.extractLsb' 0 8 = 0x00#8 →
    decode cmd = .ok (.setBit (cmd.extractLsb' 32 8) (cmd.extractLsb' 8 8))) ∧
  ∀ (x pos : Byte) (s : State),
    (pos.toNat ≤ 7 → exec (.setBit x pos) s =
      .next { s with res := (x ||| (0x01#8 <<< pos.toNat)).setWidth 64, err := 0b00#2, rvalid := true }) ∧
    (7 < pos.toNat → exec (.setBit x pos) s =
      .next { s with res := 0#64, err := 0b10#2, rvalid := true })

/-- R101. -/
def Obligations.ClearBitForcesBitToZero : Prop :=
  (∀ cmd : Cmd, cmd.extractLsb' 0 8 = 0x01#8 →
    decode cmd = .ok (.clearBit (cmd.extractLsb' 32 8) (cmd.extractLsb' 8 8))) ∧
  ∀ (x pos : Byte) (s : State),
    (pos.toNat ≤ 7 → exec (.clearBit x pos) s =
      .next { s with res := (x &&& ~~~(0x01#8 <<< pos.toNat)).setWidth 64, err := 0b00#2, rvalid := true }) ∧
    (7 < pos.toNat → exec (.clearBit x pos) s =
      .next { s with res := 0#64, err := 0b10#2, rvalid := true })

/-- R102. -/
def Obligations.ToggleBitFlipsBit : Prop :=
  (∀ cmd : Cmd, cmd.extractLsb' 0 8 = 0x02#8 →
    decode cmd = .ok (.toggleBit (cmd.extractLsb' 32 8) (cmd.extractLsb' 8 8))) ∧
  ∀ (x pos : Byte) (s : State),
    (pos.toNat ≤ 7 → exec (.toggleBit x pos) s =
      .next { s with res := (x ^^^ (0x01#8 <<< pos.toNat)).setWidth 64, err := 0b00#2, rvalid := true }) ∧
    (7 < pos.toNat → exec (.toggleBit x pos) s =
      .next { s with res := 0#64, err := 0b10#2, rvalid := true })

/-- R103. -/
def Obligations.GetBitStatusReturnsBit : Prop :=
  (∀ cmd : Cmd, cmd.extractLsb' 0 8 = 0x03#8 →
    decode cmd = .ok (.getBitStatus (cmd.extractLsb' 32 8) (cmd.extractLsb' 8 8))) ∧
  ∀ (x pos : Byte) (s : State),
    (pos.toNat ≤ 7 → exec (.getBitStatus x pos) s =
      .next { s with res := (if x.getLsbD pos.toNat then 1#64 else 0#64), err := 0b00#2, rvalid := true }) ∧
    (7 < pos.toNat → exec (.getBitStatus x pos) s =
      .next { s with res := 0#64, err := 0b10#2, rvalid := true })

/-! ## Predicates and counts -/

/-- R120. The operand is even as a number exactly when bit 0 is 0. -/
def Obligations.IsEvenTestsLowestBit : Prop :=
  (∀ cmd : Cmd, cmd.extractLsb' 0 8 = 0x04#8 → decode cmd = .ok (.isEven (cmd.extractLsb' 32 8))) ∧
  ∀ (x : Byte) (s : State), exec (.isEven x) s =
    .next { s with res := (if x.getLsbD 0 then 0#64 else 1#64), err := 0b00#2, rvalid := true }

/-- R121: the number of positions 0 to 7 whose bit is 1. -/
def Obligations.CountSetBitsCountsOnes : Prop :=
  (∀ cmd : Cmd, cmd.extractLsb' 0 8 = 0x05#8 → decode cmd = .ok (.countSetBits (cmd.extractLsb' 32 8))) ∧
  ∀ (x : Byte) (s : State), exec (.countSetBits x) s =
    .next { s with
      res := BitVec.ofNat 64 ((List.range 8).countP (fun i => x.getLsbD i)), err := 0b00#2, rvalid := true }

/-- R122: the contract as a formula, and "exactly one bit set": the operand is a power of two. -/
def Obligations.IsPowerOf2TestsForOneBit : Prop :=
  (∀ cmd : Cmd, cmd.extractLsb' 0 8 = 0x06#8 → decode cmd = .ok (.isPowerOf2 (cmd.extractLsb' 32 8))) ∧
  ∀ (x : Byte) (s : State),
    (exec (.isPowerOf2 x) s =
      .next { s with
        res := (if x ≠ 0x00#8 ∧ x &&& (x - 0x01#8) = 0x00#8 then 1#64 else 0#64),
        err := 0b00#2, rvalid := true }) ∧
    ((x ≠ 0x00#8 ∧ x &&& (x - 0x01#8) = 0x00#8) ↔ ∃ k, k ≤ 7 ∧ x.toNat = 2 ^ k)

/-! ## Permutations and field insertion -/

/-- R140. -/
def Obligations.LittleToBigEndianReversesBytes : Prop :=
  (∀ cmd : Cmd, cmd.extractLsb' 0 8 = 0x07#8 →
    decode cmd = .ok (.littleToBigEndian (cmd.extractLsb' 32 32))) ∧
  ∀ (w : Word) (s : State), ∃ r : Word,
    exec (.littleToBigEndian w) s =
      .next { s with res := r.setWidth 64, err := 0b00#2, rvalid := true } ∧
    r.extractLsb' 24 8 = w.extractLsb' 0 8 ∧ r.extractLsb' 16 8 = w.extractLsb' 8 8 ∧
    r.extractLsb' 8 8 = w.extractLsb' 16 8 ∧ r.extractLsb' 0 8 = w.extractLsb' 24 8

/-- R141, bit by bit: bits `p` down to `s = p + 1 - n` come from the low bits of `src`, all others from
`dest`; outside `n ≤ p + 1 ≤ 8` the command answers PRECOND. -/
def Obligations.SetBitsReplacesWindow : Prop :=
  (∀ cmd : Cmd, cmd.extractLsb' 0 8 = 0x08#8 →
    decode cmd = .ok (.setBits (cmd.extractLsb' 32 8) (cmd.extractLsb' 8 8) (cmd.extractLsb' 16 8)
      (cmd.extractLsb' 24 8))) ∧
  ∀ (dest p n src : Byte) (s : State),
    (p.toNat ≤ 7 ∧ n.toNat ≤ p.toNat + 1 → ∃ r : Byte,
      exec (.setBits dest p n src) s =
        .next { s with res := r.setWidth 64, err := 0b00#2, rvalid := true } ∧
      ∀ i < 8, r.getLsbD i =
        if p.toNat + 1 - n.toNat ≤ i ∧ i ≤ p.toNat then src.getLsbD (i - (p.toNat + 1 - n.toNat))
        else dest.getLsbD i) ∧
    (7 < p.toNat ∨ p.toNat + 1 < n.toNat →
      exec (.setBits dest p n src) s = .next { s with res := 0#64, err := 0b10#2, rvalid := true })

/-- R142: the exchange, and the source's formula for it. -/
def Obligations.SwapNibblesExchangesHalves : Prop :=
  (∀ cmd : Cmd, cmd.extractLsb' 0 8 = 0x09#8 → decode cmd = .ok (.swapNibbles (cmd.extractLsb' 32 8))) ∧
  ∀ (x : Byte) (s : State),
    exec (.swapNibbles x) s =
      .next { s with res := ((x <<< 4) ||| (x >>> 4)).setWidth 64, err := 0b00#2, rvalid := true } ∧
    ((x <<< 4) ||| (x >>> 4)).extractLsb' 0 4 = x.extractLsb' 4 4 ∧
    ((x <<< 4) ||| (x >>> 4)).extractLsb' 4 4 = x.extractLsb' 0 4

/-! ## Auxiliary operations -/

/-- R180: byte lane `k` holds the character for bit `7 - k`. -/
def Obligations.FormatBinaryWritesEightCharacters : Prop :=
  (∀ cmd : Cmd, cmd.extractLsb' 0 8 = 0x10#8 → decode cmd = .ok (.formatBinary (cmd.extractLsb' 32 8))) ∧
  ∀ (x : Byte) (s : State), ∃ r : ResBus,
    exec (.formatBinary x) s = .next { s with res := r, err := 0b00#2, rvalid := true } ∧
    ∀ k < 8, r.extractLsb' (8 * k) 8 = if x.getLsbD (7 - k) then 0x31#8 else 0x30#8

/-- R181: the sum modulo 256, and the same as integers in two's complement with `wrap8`. -/
def Obligations.AddWrapsModulo256 : Prop :=
  (∀ cmd : Cmd, cmd.extractLsb' 0 8 = 0x11#8 →
    decode cmd = .ok (.add (cmd.extractLsb' 32 8) (cmd.extractLsb' 24 8))) ∧
  ∀ (x y : Byte) (s : State), ∃ r : Byte,
    exec (.add x y) s = .next { s with res := r.setWidth 64, err := 0b00#2, rvalid := true } ∧
    r.toNat = (x.toNat + y.toNat) % 256 ∧
    s8 r = (s8 x + s8 y + 128) % 256 - 128

/-- R182. -/
def Obligations.SubtractWrapsModulo256 : Prop :=
  (∀ cmd : Cmd, cmd.extractLsb' 0 8 = 0x12#8 →
    decode cmd = .ok (.subtract (cmd.extractLsb' 32 8) (cmd.extractLsb' 24 8))) ∧
  ∀ (x y : Byte) (s : State), ∃ r : Byte,
    exec (.subtract x y) s = .next { s with res := r.setWidth 64, err := 0b00#2, rvalid := true } ∧
    r.toNat = (x.toNat + 256 - y.toNat) % 256 ∧
    s8 r = (s8 x - s8 y + 128) % 256 - 128

/-- R160: the exclusive OR, which the formula with OR, AND and NOT equals. -/
def Obligations.XorWithoutOperatorIsXor : Prop :=
  (∀ cmd : Cmd, cmd.extractLsb' 0 8 = 0x13#8 →
    decode cmd = .ok (.xorWithoutOperator (cmd.extractLsb' 32 8) (cmd.extractLsb' 24 8))) ∧
  ∀ (x y : Byte) (s : State),
    exec (.xorWithoutOperator x y) s =
      .next { s with res := (x ^^^ y).setWidth 64, err := 0b00#2, rvalid := true } ∧
    (x ||| y) &&& (~~~x ||| ~~~y) = x ^^^ y

/-- R161. -/
def Obligations.SizeOfUsingBitwiseIsOne : Prop :=
  (∀ cmd : Cmd, cmd.extractLsb' 0 8 = 0x14#8 → decode cmd = .ok .sizeOfUsingBitwise) ∧
  ∀ s : State, exec .sizeOfUsingBitwise s = .next { s with res := 1#64, err := 0b00#2, rvalid := true }

/-- R183: the product modulo 256, and the shift-and-add sum over the set bits of the multiplier. -/
def Obligations.MultiplyByNKeepsLowProduct : Prop :=
  (∀ cmd : Cmd, cmd.extractLsb' 0 8 = 0x15#8 →
    decode cmd = .ok (.multiplyByN (cmd.extractLsb' 32 8) (cmd.extractLsb' 24 8))) ∧
  ∀ (x y : Byte) (s : State), ∃ r : Byte,
    exec (.multiplyByN x y) s = .next { s with res := r.setWidth 64, err := 0b00#2, rvalid := true } ∧
    r.toNat = (x.toNat * y.toNat) % 256 ∧
    r = (List.range 8).foldl (fun acc i => if y.getLsbD i then acc + (x <<< i) else acc) 0#8

/-- R162. -/
def Obligations.IsNthBitOnReturnsBitOfWord : Prop :=
  (∀ cmd : Cmd, cmd.extractLsb' 0 8 = 0x16#8 →
    decode cmd = .ok (.isNthBitOn (cmd.extractLsb' 32 32) (cmd.extractLsb' 8 8))) ∧
  ∀ (w : Word) (pos : Byte) (s : State),
    (pos.toNat ≤ 31 → exec (.isNthBitOn w pos) s =
      .next { s with res := (if w.getLsbD pos.toNat then 1#64 else 0#64), err := 0b00#2, rvalid := true }) ∧
    (31 < pos.toNat → exec (.isNthBitOn w pos) s =
      .next { s with res := 0#64, err := 0b10#2, rvalid := true })

/-- R187: lane 0 is the new first value, the old second; lane 1 the new second, the old first. -/
def Obligations.SwapReturnsBothExchanged : Prop :=
  (∀ cmd : Cmd, cmd.extractLsb' 0 8 = 0x17#8 →
    decode cmd = .ok (.swap (cmd.extractLsb' 32 8) (cmd.extractLsb' 24 8))) ∧
  ∀ (x y : Byte) (s : State), ∃ r : ResBus,
    exec (.swap x y) s = .next { s with res := r, err := 0b00#2, rvalid := true } ∧
    r.extractLsb' 0 8 = y ∧ r.extractLsb' 8 8 = x ∧ r.extractLsb' 16 48 = 0#48

/-- R165: the formula, and what it does bit by bit: the lowest set bit goes, the others stay. -/
def Obligations.ClearLsbClearsLowestSetBit : Prop :=
  (∀ cmd : Cmd, cmd.extractLsb' 0 8 = 0x18#8 → decode cmd = .ok (.clearLsb (cmd.extractLsb' 32 8))) ∧
  ∀ (x : Byte) (s : State),
    exec (.clearLsb x) s =
      .next { s with res := (x &&& (x - 0x01#8)).setWidth 64, err := 0b00#2, rvalid := true } ∧
    ∀ i < 8, (x &&& (x - 0x01#8)).getLsbD i = (x.getLsbD i && decide (∃ j < i, x.getLsbD j = true))

/-- R166: the position of the highest set bit, or `FIND_MSB_ZERO = 0xFF` for 0; never an error. -/
def Obligations.FindMsbFindsHighestSetBit : Prop :=
  (∀ cmd : Cmd, cmd.extractLsb' 0 8 = 0x19#8 → decode cmd = .ok (.findMsb (cmd.extractLsb' 32 8))) ∧
  (∀ s : State, exec (.findMsb 0x00#8) s =
    .next { s with res := 0x00000000000000FF#64, err := 0b00#2, rvalid := true }) ∧
  ∀ (x : Byte) (s : State), x ≠ 0x00#8 → ∃ k, k ≤ 7 ∧ x.getLsbD k = true ∧
    (∀ j, k < j → j ≤ 7 → x.getLsbD j = false) ∧
    exec (.findMsb x) s = .next { s with res := BitVec.ofNat 64 k, err := 0b00#2, rvalid := true }

/-! ## Errors -/

/-- R72, R202: a reserved code is accepted and answers ILLEGAL_OP, and nothing else answers it. -/
def Obligations.ReservedCodesAnswerIllegalOp : Prop :=
  ∀ (aux : Bool) (cmd : Cmd) (s : State),
    let op := (cmd.extractLsb' 0 8).toNat
    let reserved := (0x0A ≤ op ∧ op ≤ 0x0F) ∨ 0x1A ≤ op ∨ (aux = false ∧ 0x10 ≤ op)
    (reserved → accept aux cmd s = .next { s with res := 0#64, err := 0b01#2, rvalid := true }) ∧
    ((F aux cmd).2 = 0b01#2 ↔ reserved)

/-- R203, R104: PRECOND answers exactly these commands, whatever `X`, `A` and (but for the window) the
other fields hold. -/
def Obligations.PrecondExactlyOutOfRange : Prop :=
  ∀ cmd : Cmd,
    let op := cmd.extractLsb' 0 8
    let p := (cmd.extractLsb' 8 8).toNat
    let n := (cmd.extractLsb' 16 8).toNat
    F true cmd = (0#64, 0b10#2) ↔
      ((op = 0x00#8 ∨ op = 0x01#8 ∨ op = 0x02#8 ∨ op = 0x03#8) ∧ 8 ≤ p) ∨
      (op = 0x08#8 ∧ (8 ≤ p ∨ p + 1 < n)) ∨
      (op = 0x16#8 ∧ 32 ≤ p)

/-- R201 with R26: an error's `RES` is all zeros and no result a host may use, and `2'b11` is never a
code. -/
def Obligations.ErrorResponseIsZero : Prop :=
  ∀ (aux : Bool) (cmd : Cmd) (s : State),
    (F aux cmd).2 ≠ 0b11#2 ∧
    ((F aux cmd).2 ≠ 0b00#2 →
      let t : State := { s with res := 0#64, err := (F aux cmd).2, rvalid := true }
      accept aux cmd s = .next t ∧ t.rspResult = none)

/-- R205: the fourteen operations without a precondition never answer an error. -/
def Obligations.FourteenOperationsNeverFail : Prop :=
  ∀ cmd : Cmd,
    cmd.extractLsb' 0 8 ∈ [0x04#8, 0x05#8, 0x06#8, 0x07#8, 0x09#8, 0x10#8, 0x11#8, 0x12#8, 0x13#8, 0x14#8,
      0x15#8, 0x17#8, 0x18#8, 0x19#8] →
    (F true cmd).2 = 0b00#2

/-! ## The step -/

/-- R24: the edge, for every state and every input, is the clocked wrapper of `F`. -/
def Obligations.EdgeIsClockedWrapperOfF : Prop :=
  ∀ (aux : Bool) (e : EdgeInput) (s : State),
    edge aux e s = .next
      (if e.rst = true then { s with res := 0#64, err := 0b00#2, rvalid := false }
       else if e.cmdValid = true then
         { s with res := (F aux e.cmd).1, err := (F aux e.cmd).2, rvalid := true }
       else { s with rvalid := false })

/-- The step is the edge with the first pending input, which is used up; the list of pending inputs is
the model's (log entry 1). Past its end the step is an idle edge, the model's choice (log entry 2). -/
def Obligations.StepIsEdgeOfNextInput : Prop :=
  ∀ s : State,
    (∀ (e : EdgeInput) (es : List EdgeInput), s.inputs = e :: es →
      step s = edge true e { s with inputs := es }) ∧
    (s.inputs = [] → step s = .next { s with rvalid := false })

/-- When the next edge presents a command that decodes to `i`, the step is `exec i` at the state with
that input used up. The list of pending inputs is the model's (log entry 1). -/
def Obligations.StepRunsDecodedCommand : Prop :=
  ∀ (cmd : Cmd) (i : Instr) (es : List EdgeInput) (s : State),
    s.inputs = { rst := false, cmdValid := true, cmd := cmd } :: es → decode cmd = .ok i →
    i.wellFormed = true ∧ step s = exec i { s with inputs := es }

/-- The step never stops: every state has exactly one successor. What a state without pending inputs
does is the model's choice (log entry 2). -/
def Obligations.StepNeverStops : Prop :=
  ∀ s : State, ∃ t : State, step s = .next t ∧ t.inputs = s.inputs.tail

/-- R32: what reset leaves, at the ports. -/
def Obligations.ResetStateShowsNoResponse : Prop :=
  State.reset.res = 0#64 ∧ State.reset.err = 0b00#2 ∧ State.reset.rvalid = false ∧
  State.reset.rspRes = 0#64 ∧ State.reset.rspErr = 0b00#2 ∧ State.reset.rspValid = false ∧
  State.reset.cmdReady = true ∧
  ∀ (aux : Bool) (e : EdgeInput) (s : State), e.rst = true →
    edge aux e s = .next { State.reset with inputs := s.inputs }

/-- R230, R231, R232: one edge with `rst = 1` gives the reset values from any state, with or without a
command on the port; another repeats it, and the first edge with `rst = 0` already accepts. No command
is a reset: from any state a command leaves `RVALID = 1` and its own response. -/
def Obligations.ResetEdgeWinsOverCommand : Prop :=
  ∀ (aux cmdValid : Bool) (cmd d : Cmd) (s : State),
    let r : State := { s with res := 0#64, err := 0b00#2, rvalid := false }
    let t : State := { s with res := (F aux d).1, err := (F aux d).2, rvalid := true }
    edge aux { rst := true, cmdValid := cmdValid, cmd := cmd } s = .next r ∧
    edge aux { rst := true, cmdValid := cmdValid, cmd := cmd } r = .next r ∧
    edge aux { rst := true, cmdValid := cmdValid, cmd := cmd } t = .next r ∧
    edge aux { rst := false, cmdValid := true, cmd := d } r = .next t ∧
    edge aux { rst := false, cmdValid := true, cmd := d } s = .next t

/-- R28: `RVALID` is a pulse for each accepted command, and `RES`, `ERR` stay until the next command or
reset. -/
def Obligations.RvalidPulsesPerCommand : Prop :=
  ∀ (aux : Bool) (e : EdgeInput) (s : State), ∃ t : State,
    edge aux e s = .next t ∧
    t.rvalid = (!e.rst && e.cmdValid) ∧
    (e.rst = false → e.cmdValid = false → t.res = s.res ∧ t.err = s.err)

/-- R19, R50: the response to a command is the same whatever came before it. -/
def Obligations.ResponseIndependentOfState : Prop :=
  ∀ (aux : Bool) (cmd : Cmd) (s s' : State), ∃ t t' : State,
    edge aux { rst := false, cmdValid := true, cmd := cmd } s = .next t ∧
    edge aux { rst := false, cmdValid := true, cmd := cmd } s' = .next t' ∧
    t.res = t'.res ∧ t.err = t'.err ∧ t.rvalid = t'.rvalid

/-- R242: after two accepted commands at consecutive edges the registers hold the second response; the
first was there for one cycle. -/
def Obligations.NextCommandOverwritesResponse : Prop :=
  ∀ (aux : Bool) (c d : Cmd) (s : State), ∃ t t' : State,
    edge aux { rst := false, cmdValid := true, cmd := c } s = .next t ∧
    (t.rspValid, t.rspRes, t.rspErr) = (true, F aux c) ∧
    edge aux { rst := false, cmdValid := true, cmd := d } t = .next t' ∧
    (t'.rspValid, t'.rspRes, t'.rspErr) = (true, F aux d)

/-! ## Whole runs -/

/-- The responses of a run are `F` of the accepted commands, in order, from every start state. A faulted
response is read as its code alone; on a safe run, the premise R214 asks for, every command answers OK and
the responses are the results. The list of pending inputs is the model's (log entry 1). -/
def Obligations.ResponsesAreFOfAcceptedCommands : Prop :=
  ∀ s : State,
    responses s.inputs.length s =
      (acceptedCommands s.inputs).map (fun cmd => Response.ofPair (F true cmd)) ∧
    (SafeRun s.inputs.length s →
      (∀ cmd ∈ acceptedCommands s.inputs, (F true cmd).2 = 0b00#2) ∧
      responses s.inputs.length s =
        (acceptedCommands s.inputs).map (fun cmd => Response.result (F true cmd).1))

/-- Idle edges anywhere in the inputs change no response. The list of pending inputs is the model's
(log entry 1). -/
def Obligations.IdleEdgesChangeNoResponse : Prop :=
  ∀ s : State,
    let t : State := { s with inputs := s.inputs.filter (fun e => !e.isIdle) }
    responses t.inputs.length t = responses s.inputs.length s

/-- A run is safe exactly when `F` answers OK to every command it accepts. The list of pending inputs
is the model's (log entry 1). -/
def Obligations.SafeRunIffEveryCommandOk : Prop :=
  ∀ s : State,
    SafeRun s.inputs.length s ↔ ∀ cmd ∈ acceptedCommands s.inputs, (F true cmd).2 = 0b00#2

/-- Every step keeps a legal response legal: no `2'b11`, and zeros beside an error. -/
def Obligations.StepKeepsLegalResponse : Prop :=
  ∀ s t : State, s.LegalResponse → step s = .next t → t.LegalResponse

/-- The state after reset meets that invariant: `ERR` is no `2'b11`, and `RES` is zeros if `ERR` is an
error, which it is not. -/
def Obligations.ResetHasLegalResponse : Prop :=
  State.reset.LegalResponse

/-- A reset or an accepted command makes the response legal from any state, `ERR = 2'b11` included. -/
def Obligations.ResetOrCommandMakesResponseLegal : Prop :=
  ∀ (aux : Bool) (e : EdgeInput) (s : State), (e.rst = true ∨ e.cmdValid = true) →
    ∃ t : State, edge aux e s = .next t ∧ t.LegalResponse

/-! ## Encoding -/

/-- R67, its example first. -/
def Obligations.CommandValueIsSumOfFields : Prop :=
  encode (.setBits 170 6 3 167) = 0x000000AAA7030608#64 ∧
  ∀ (a : Word) (b n pos op : Byte),
    (packCmd a b n pos op).toNat =
      a.toNat * 2 ^ 32 + b.toNat * 2 ^ 24 + n.toNat * 2 ^ 16 + pos.toNat * 2 ^ 8 + op.toNat

/-- Decoding the canonical encoding of an implemented command gives it back, for every operand. -/
def Obligations.DecodeOfEncode : Prop :=
  ∀ (aux : Bool) (i : Instr), i.wellFormedWith aux = true → decodeWith aux (encode i) = .ok i

/-- R70: the canonical encoding of the command a word decodes to is that word with the ignored bits
zero, and every word with the same read bits is the same command with the same response. -/
def Obligations.IgnoredFieldsHaveNoEffect : Prop :=
  ∀ (aux : Bool) (c : Cmd) (i : Instr), decodeWith aux c = .ok i →
    i.wellFormedWith aux = true ∧ encode i = c &&& i.readMask ∧
    ∀ d : Cmd, d &&& i.readMask = c &&& i.readMask →
      decodeWith aux d = .ok i ∧ ∀ s : State, accept aux d s = accept aux c s

/-- R63: which codes name an operation, and the bits of `OP` that say so. -/
def Obligations.OperationCodesAreTwoGroups : Prop :=
  ∀ (aux : Bool) (cmd : Cmd),
    let op := cmd.extractLsb' 0 8
    ((∃ i, decodeWith aux cmd = .ok i) ↔
      op.toNat ≤ 0x09 ∨ (aux = true ∧ 0x10 ≤ op.toNat ∧ op.toNat ≤ 0x19)) ∧
    (decodeWith aux cmd = .error (.reservedOp op) ∨ ∃ i, decodeWith aux cmd = .ok i) ∧
    ∀ i, decodeWith aux cmd = .ok i →
      i.opcode = op ∧ op.getLsbD 4 = i.isAux ∧ op.extractLsb' 5 3 = 0#3

/-- R9: without the auxiliary group its ten codes are reserved and nothing else changes. -/
def Obligations.WithoutAuxiliaryGroup : Prop :=
  ∀ cmd : Cmd,
    let op := (cmd.extractLsb' 0 8).toNat
    F false cmd = if 0x10 ≤ op ∧ op ≤ 0x19 then (0#64, 0b01#2) else F true cmd

/-- Words written out from the encoding table decode to the commands they stand for: one of each
family (R67 gives the first). -/
def Obligations.SampleWordsDecode : Prop :=
  decode 0x000000AAA7030608#64 = .ok (.setBits 170 6 3 167) ∧
  decode 0x0000000000000200#64 = .ok (.setBit 0 2) ∧
  decode 0x0000000F00000005#64 = .ok (.countSetBits 15) ∧
  decode 0x0008000000001316#64 = .ok (.isNthBitOn 524288 19) ∧
  decode 0x0000000503000012#64 = .ok (.subtract 5 3) ∧
  decode 0xFFFFFFFFFFFFFF14#64 = .ok .sizeOfUsingBitwise ∧
  decode 0xFFFFFFFFFFFFFFFF#64 = .error (.reservedOp 0xFF)

/-- R25: which operations reach the upper parts of `RES`, and zeros beside an error. -/
def Obligations.UpperResultBitsAreZero : Prop :=
  ∀ cmd : Cmd,
    let op := cmd.extractLsb' 0 8
    let r := (F true cmd).1
    (r.extractLsb' 32 32 ≠ 0#32 → op = 0x10#8) ∧
    (r.extractLsb' 16 16 ≠ 0#16 → op = 0x07#8 ∨ op = 0x10#8) ∧
    (r.extractLsb' 8 8 ≠ 0#8 → op = 0x07#8 ∨ op = 0x10#8 ∨ op = 0x17#8) ∧
    ((F true cmd).2 ≠ 0b00#2 → r = 0#64)

/-- The range of the narrow results, for `ERR = OK` (95_test_vectors.md section 4, point 5): one bit, a
count of 0 to 8, the constant 1, a bit position or the sentinel. Nothing is read of an errored `RES`
(R214). -/
def Obligations.NarrowResultsAreInRange : Prop :=
  ∀ cmd : Cmd, (F true cmd).2 = 0b00#2 →
    let op := cmd.extractLsb' 0 8
    let r := (F true cmd).1.toNat
    (op ∈ [0x03#8, 0x04#8, 0x06#8, 0x16#8] → r ≤ 1) ∧
    (op = 0x05#8 → r ≤ 8) ∧ (op = 0x14#8 → r = 1) ∧ (op = 0x19#8 → r ≤ 7 ∨ r = 0xFF)

/-! ## Laws of the spec, over commands whose operands are earlier responses -/

/-- R105, R106. -/
def Obligations.SetClearToggleLaws : Prop :=
  ∀ (x p : Byte) (s : State), p.toNat ≤ 7 →
    (∃ t t' : State, exec (.clearBit x p) s = .next t ∧ exec (.setBit t.rspByte p) t = .next t' ∧
      t'.rspResult = some ((x ||| (0x01#8 <<< p.toNat)).setWidth 64)) ∧
    (∃ t t' : State, exec (.setBit x p) s = .next t ∧ exec (.clearBit t.rspByte p) t = .next t' ∧
      t'.rspResult = some ((x &&& ~~~(0x01#8 <<< p.toNat)).setWidth 64)) ∧
    (∃ t t' : State, exec (.toggleBit x p) s = .next t ∧ exec (.toggleBit t.rspByte p) t = .next t' ∧
      t'.rspResult = some (x.setWidth 64))

/-- R107: what each writer does to the bit it names and to every other. -/
def Obligations.WritersChangeOnlyTheirBit : Prop :=
  ∀ (x p q : Byte) (s : State), p.toNat ≤ 7 → q.toNat ≤ 7 →
    ∃ g a b c ga gb gc : State,
      exec (.getBitStatus x q) s = .next g ∧
      exec (.setBit x p) s = .next a ∧ exec (.getBitStatus a.rspByte q) a = .next ga ∧
      exec (.clearBit x p) s = .next b ∧ exec (.getBitStatus b.rspByte q) b = .next gb ∧
      exec (.toggleBit x p) s = .next c ∧ exec (.getBitStatus c.rspByte q) c = .next gc ∧
      a.err = 0b00#2 ∧ b.err = 0b00#2 ∧ c.err = 0b00#2 ∧
      g.err = 0b00#2 ∧ ga.err = 0b00#2 ∧ gb.err = 0b00#2 ∧ gc.err = 0b00#2 ∧
      ga.res = (if p = q then 1#64 else g.res) ∧
      gb.res = (if p = q then 0#64 else g.res) ∧
      gc.res = (if p = q then 1#64 - g.res else g.res)

/-- R123, R124, R125. -/
def Obligations.CountsAndPredicatesAgree : Prop :=
  ∀ (x : Byte) (s : State), ∃ c d p e g : State,
    exec (.countSetBits x) s = .next c ∧ exec (.countSetBits (~~~x)) s = .next d ∧
    exec (.isPowerOf2 x) s = .next p ∧ exec (.isEven x) s = .next e ∧
    exec (.getBitStatus x 0x00#8) s = .next g ∧
    c.res.toNat + d.res.toNat = 8 ∧
    (p.res = 1#64 ↔ c.res = 1#64) ∧
    e.res = 1#64 - g.res ∧
    (x ≠ 0x01#8 → p.res = 1#64 → e.res = 1#64)

/-- R143, R144. -/
def Obligations.ByteSwapAndNibbleSwapAreInvolutions : Prop :=
  (∀ (w : Word) (s : State), ∃ t t' : State,
    exec (.littleToBigEndian w) s = .next t ∧
    exec (.littleToBigEndian (t.res.setWidth 32)) t = .next t' ∧ t'.rspResult = some (w.setWidth 64)) ∧
  ∀ (x : Byte) (s : State), ∃ t t' : State,
    exec (.swapNibbles x) s = .next t ∧ exec (.swapNibbles t.rspByte) t = .next t' ∧
    t'.rspResult = some (x.setWidth 64)

/-- R145 (a) to (e). -/
def Obligations.FieldInsertionLaws : Prop :=
  ∀ (dest p n src : Byte) (s : State), p.toNat ≤ 7 → n.toNat ≤ p.toNat + 1 →
    (∀ src' : Byte, (∀ i < n.toNat, src.getLsbD i = src'.getLsbD i) →
      exec (.setBits dest p n src) s = exec (.setBits dest p n src') s) ∧
    (∃ t t' : State, exec (.setBits dest p n src) s = .next t ∧
      exec (.setBits t.rspByte p n (dest >>> (p.toNat + 1 - n.toNat))) t = .next t' ∧
      t'.rspResult = some (dest.setWidth 64)) ∧
    (exec (.setBits dest p 1#8 1#8) s = exec (.setBit dest p) s ∧
      exec (.setBits dest p 1#8 0#8) s = exec (.clearBit dest p) s) ∧
    (∃ t t' : State, exec (.setBits dest 7#8 8#8 src) s = .next t ∧ t.rspResult = some (src.setWidth 64) ∧
      exec (.setBits dest p 0#8 src) s = .next t' ∧ t'.rspResult = some (dest.setWidth 64)) ∧
    (∃ t t' : State, exec (.setBits dest 7#8 4#8 dest) s = .next t ∧
      t.rspResult = some ((dest.extractLsb' 0 4 ++ dest.extractLsb' 0 4).setWidth 64) ∧
      exec (.swapNibbles dest) s = .next t' ∧
      t'.rspByte.extractLsb' 4 4 = t.rspByte.extractLsb' 4 4)

/-- R186. -/
def Obligations.ArithmeticInverses : Prop :=
  ∀ (x y : Byte) (s : State),
    (∃ t t' : State, exec (.add x y) s = .next t ∧ exec (.subtract t.rspByte y) t = .next t' ∧
      t'.rspResult = some (x.setWidth 64)) ∧
    (∃ t t' : State, exec (.subtract x y) s = .next t ∧ exec (.add t.rspByte y) t = .next t' ∧
      t'.rspResult = some (x.setWidth 64)) ∧
    exec (.add x y) s = exec (.add y x) s ∧
    (∀ i ≤ 7, ∃ t : State, exec (.multiplyByN x (BitVec.ofNat 8 (2 ^ i))) s = .next t ∧
      t.rspResult = some ((x <<< i).setWidth 64)) ∧
    exec (.add x x) s = exec (.multiplyByN x 2#8) s

/-- R188, with the last sentence of R187's corner cases. -/
def Obligations.SwapOfEqualAndSwapTwice : Prop :=
  ∀ (x y : Byte) (s : State),
    (∃ t : State, exec (.swap x x) s = .next t ∧ t.err = 0b00#2 ∧
      t.res.extractLsb' 0 8 = x ∧ t.res.extractLsb' 8 8 = x) ∧
    (∃ t t' : State, exec (.swap x y) s = .next t ∧
      exec (.swap (t.res.extractLsb' 0 8) (t.res.extractLsb' 8 8)) t = .next t' ∧ t'.err = 0b00#2 ∧
      t'.res.extractLsb' 0 8 = x ∧ t'.res.extractLsb' 8 8 = y)

/-- R167. -/
def Obligations.AuxiliaryBitRelations : Prop :=
  ∀ (x y : Byte) (s : State),
    (x ≠ 0x00#8 → ∃ t t' : State, exec (.findMsb x) s = .next t ∧
      exec (.getBitStatus x t.rspByte) t = .next t' ∧ t'.rspResult = some 1#64 ∧
      ∀ j : Byte, t.rspByte.toNat < j.toNat → j.toNat ≤ 7 →
        ∃ t'' : State, exec (.getBitStatus x j) t' = .next t'' ∧ t''.rspResult = some 0#64) ∧
    (∃ t c d : State, exec (.clearLsb x) s = .next t ∧ exec (.countSetBits t.rspByte) t = .next c ∧
      exec (.countSetBits x) s = .next d ∧ c.res.toNat = max (d.res.toNat - 1) 0) ∧
    exec (.xorWithoutOperator x y) s = exec (.xorWithoutOperator y x) s ∧
    (∃ t t' : State, exec (.xorWithoutOperator x y) s = .next t ∧
      exec (.xorWithoutOperator t.rspByte y) t = .next t' ∧ t'.rspResult = some (x.setWidth 64))

/-! ## Assembler notation -/

/-- R75: what each of the twenty forms assembles, for every list of arguments. A form gives an edge
exactly when it has as many arguments as it takes and each fits its field, and the edge presents the
canonical encoding of the command; so a missing or extra argument, a number above the field's range, a
negative number for a Byte, a position, a count or a Word, and a negative number outside -128 to -1 for a
SignedByte are all errors. A negative SignedByte is its two's-complement pattern, in either operand of
`add` and of `subtract`. Reading a text as such arguments, and `-0` as `.negative 0`, is the model's (log
entry 10). -/
def Obligations.AssemblerGivesCanonicalEncoding : Prop :=
  let line := fun i : Instr => ({ rst := false, cmdValid := true, cmd := encode i } : EdgeInput)
  let byte := fun v : Byte => Arg.unsigned v.toNat
  let word := fun v : Word => Arg.unsigned v.toNat
  let signed := fun (a : Arg) (v : Byte) =>
    a = byte v ∨ ∃ k, 1 ≤ k ∧ k ≤ 128 ∧ a = .negative k ∧ v.toNat = 256 - k
  let formOfX := fun (name : String) (f : Byte → Instr) => ∀ (args : List Arg) (e : EdgeInput),
    assembleWords name args = some e ↔ ∃ x, args = [byte x] ∧ e = line (f x)
  let formOfXY := fun (name : String) (f : Byte → Byte → Instr) => ∀ (args : List Arg) (e : EdgeInput),
    assembleWords name args = some e ↔ ∃ x y, args = [byte x, byte y] ∧ e = line (f x y)
  let formOfSigned := fun (name : String) (f : Byte → Byte → Instr) => ∀ (args : List Arg) (e : EdgeInput),
    assembleWords name args = some e ↔
      ∃ a b x y, args = [a, b] ∧ signed a x ∧ signed b y ∧ e = line (f x y)
  (formOfXY "set_bit" .setBit ∧ formOfXY "clear_bit" .clearBit ∧ formOfXY "toggle_bit" .toggleBit ∧
    formOfXY "get_bit_status" .getBitStatus ∧ formOfX "is_even" .isEven ∧
    formOfX "count_set_bits" .countSetBits ∧ formOfX "is_power_of_2" .isPowerOf2 ∧
    formOfX "swap_nibbles" .swapNibbles) ∧
  (∀ (args : List Arg) (e : EdgeInput), assembleWords "little_to_big_endian" args = some e ↔
    ∃ w, args = [word w] ∧ e = line (.littleToBigEndian w)) ∧
  (∀ (args : List Arg) (e : EdgeInput), assembleWords "set_bits" args = some e ↔
    ∃ dest p n src, args = [byte dest, byte p, byte n, byte src] ∧ e = line (.setBits dest p n src)) ∧
  (formOfX "format_binary" .formatBinary ∧ formOfSigned "add" .add ∧ formOfSigned "subtract" .subtract ∧
    formOfXY "xor_without_operator" .xorWithoutOperator ∧ formOfXY "multiply_by_n" .multiplyByN ∧
    formOfXY "swap" .swap ∧ formOfX "clear_lsb" .clearLsb ∧ formOfX "find_msb" .findMsb) ∧
  (∀ (args : List Arg) (e : EdgeInput), assembleWords "size_of_using_bitwise" args = some e ↔
    args = [] ∧ e = line .sizeOfUsingBitwise) ∧
  ∀ (args : List Arg) (e : EdgeInput), assembleWords "is_nth_bit_on" args = some e ↔
    ∃ w pos, args = [word w, byte pos] ∧ e = line (.isNthBitOn w pos)

/-- R76: the five second names stand for exactly one command each, `.cmd` places any word on the bus,
`idle` and `reset` are the two other lines, and no other name but the twenty of R75 is one. -/
def Obligations.SecondNamesAndRawWords : Prop :=
  (∀ args : List Arg,
    assembleWords "population_count" args = assembleWords "count_set_bits" args ∧
    assembleWords "power_of_two_test" args = assembleWords "is_power_of_2" args ∧
    assembleWords "byte_swap" args = assembleWords "little_to_big_endian" args ∧
    assembleWords "bit_field_insert" args = assembleWords "set_bits" args ∧
    assembleWords "nibble_swap" args = assembleWords "swap_nibbles" args) ∧
  (∀ v : Cmd, assembleWords ".cmd" [.unsigned v.toNat] = some { rst := false, cmdValid := true, cmd := v }) ∧
  (∃ e, assembleWords "idle" [] = some e ∧ e.rst = false ∧ e.cmdValid = false) ∧
  (∃ e, assembleWords "reset" [] = some e ∧ e.rst = true) ∧
  (∀ (name : String) (args : List Arg) (e : EdgeInput), assembleWords name args = some e →
    name ∈ ["set_bit", "clear_bit", "toggle_bit", "get_bit_status", "is_even", "count_set_bits",
      "is_power_of_2", "little_to_big_endian", "set_bits", "swap_nibbles"] ∨
    name ∈ ["format_binary", "add", "subtract", "xor_without_operator", "size_of_using_bitwise",
      "multiply_by_n", "is_nth_bit_on", "swap", "clear_lsb", "find_msb"] ∨
    name ∈ ["population_count", "power_of_two_test", "byte_swap", "bit_field_insert", "nibble_swap",
      ".cmd", "idle", "reset"])
end

