-- ==== Sys2Proof/Laws/Assembler.lean ====
section
/-! SUPPORT. What an argument stands for and what each form of 30_encoding.md R75 takes: one equivalence
per function, so that a proof about a line unfolds none of them. -/

namespace Sys2Proof.Machine

/-! ## Arguments -/

theorem Arg.asByte_eq_some_iff {a : Arg} {v : Byte} :
    a.asByte = some v ↔ a = .unsigned v.toNat := by
  have := v.isLt
  cases a <;> simp [Arg.asByte, ← BitVec.toNat_inj]
  omega

theorem Arg.asWord_eq_some_iff {a : Arg} {w : Word} :
    a.asWord = some w ↔ a = .unsigned w.toNat := by
  have := w.isLt
  cases a <;> simp [Arg.asWord, ← BitVec.toNat_inj]
  omega

theorem Arg.asSignedByte_eq_some_iff {a : Arg} {v : Byte} :
    a.asSignedByte = some v ↔
      a = .unsigned v.toNat ∨ ∃ k, 1 ≤ k ∧ k ≤ 128 ∧ a = .negative k ∧ v.toNat = 256 - k := by
  have := v.isLt
  cases a <;> simp [Arg.asSignedByte, ← BitVec.toNat_inj] <;> omega

/-! ## Forms -/

theorem formX_eq_some_iff {f : Byte → Instr} {args : List Arg} {i : Instr} :
    formX f args = some i ↔ ∃ x : Byte, args = [.unsigned x.toNat] ∧ i = f x := by
  rcases args with _ | ⟨a, _ | ⟨b, l⟩⟩ <;> simp [formX, Arg.asByte_eq_some_iff, @eq_comm _ i]

theorem formXY_eq_some_iff {f : Byte → Byte → Instr} {args : List Arg} {i : Instr} :
    formXY f args = some i ↔
      ∃ x y : Byte, args = [.unsigned x.toNat, .unsigned y.toNat] ∧ i = f x y := by
  rcases args with _ | ⟨a, _ | ⟨b, _ | ⟨c, l⟩⟩⟩ <;>
    simp [formXY, Option.bind_eq_some_iff, Arg.asByte_eq_some_iff, @eq_comm _ i, and_assoc]

theorem formSigned_eq_some_iff {f : Byte → Byte → Instr} {args : List Arg} {i : Instr} :
    formSigned f args = some i ↔
      ∃ a b x y, args = [a, b] ∧ a.asSignedByte = some x ∧ b.asSignedByte = some y ∧ i = f x y := by
  rcases args with _ | ⟨a, _ | ⟨b, _ | ⟨c, l⟩⟩⟩ <;>
    simp [formSigned, Option.bind_eq_some_iff, @eq_comm _ i]

theorem formW_eq_some_iff {f : Word → Instr} {args : List Arg} {i : Instr} :
    formW f args = some i ↔ ∃ w : Word, args = [.unsigned w.toNat] ∧ i = f w := by
  rcases args with _ | ⟨a, _ | ⟨b, l⟩⟩ <;> simp [formW, Arg.asWord_eq_some_iff, @eq_comm _ i]

theorem formWPos_eq_some_iff {f : Word → Byte → Instr} {args : List Arg} {i : Instr} :
    formWPos f args = some i ↔
      ∃ (w : Word) (pos : Byte), args = [.unsigned w.toNat, .unsigned pos.toNat] ∧ i = f w pos := by
  rcases args with _ | ⟨a, _ | ⟨b, _ | ⟨c, l⟩⟩⟩ <;>
    simp [formWPos, Option.bind_eq_some_iff, Arg.asByte_eq_some_iff, Arg.asWord_eq_some_iff, @eq_comm _ i, and_assoc]

theorem formField_eq_some_iff {f : Byte → Byte → Byte → Byte → Instr} {args : List Arg} {i : Instr} :
    formField f args = some i ↔ ∃ dest p n src : Byte,
      args = [.unsigned dest.toNat, .unsigned p.toNat, .unsigned n.toNat, .unsigned src.toNat] ∧
      i = f dest p n src := by
  rcases args with _ | ⟨a, _ | ⟨b, _ | ⟨c, _ | ⟨d, _ | ⟨e, l⟩⟩⟩⟩⟩ <;>
    simp [formField, Option.bind_eq_some_iff, Arg.asByte_eq_some_iff, @eq_comm _ i, and_assoc]

theorem formNone_eq_some_iff {j i : Instr} {args : List Arg} :
    formNone j args = some i ↔ args = [] ∧ i = j := by
  cases args <;> simp [formNone, @eq_comm _ i]

/-! ## Lines -/

/-- A mnemonic found in the table, and none of the three other lines of R76, assembles by its form. -/
theorem assembleWords_eq_some_iff {name : String} {form : List Arg → Option Instr} {args : List Arg}
    {e : EdgeInput} (hf : forms.find? (fun f => f.1 == name) = some (name, form))
    (hn : name ≠ ".cmd" ∧ name ≠ "idle" ∧ name ≠ "reset") :
    assembleWords name args = some e ↔
      ∃ i, form args = some i ∧ e = { rst := false, cmdValid := true, cmd := encode i } := by
  simp [assembleWords, assembleInstr, hf, hn, commandEdge, @eq_comm _ e]

end Sys2Proof.Machine
end

