-- ==== Sys2Proof/Laws/Decode.lean ====
section
/-! SUPPORT. The bits and the fields of a packed command word, and a word as the pack of its fields
(30_encoding.md R61, R67). -/

namespace Sys2Proof

variable (a : Word) (b n pos op : Byte)

/-- Every bit of a packed word. -/
theorem getLsbD_packCmd (i : Nat) :
    (packCmd a b n pos op).getLsbD i =
      if i < 8 then op.getLsbD i else if i < 16 then pos.getLsbD (i - 8)
      else if i < 24 then n.getLsbD (i - 16) else if i < 32 then b.getLsbD (i - 24)
      else a.getLsbD (i - 32) := by
  unfold packCmd
  simp only [BitVec.getLsbD_append]
  repeat' split
  all_goals first | omega | congr 1

@[simp] theorem opField_packCmd : opField (packCmd a b n pos op) = op := by
  ext i hi
  simp only [opField, BitVec.getElem_extractLsb', getLsbD_packCmd]
  simp [hi]

@[simp] theorem posField_packCmd : posField (packCmd a b n pos op) = pos := by
  ext i hi
  simp only [posField, BitVec.getElem_extractLsb', getLsbD_packCmd]
  simp [hi, show 8 + i < 16 by omega]

@[simp] theorem nField_packCmd : nField (packCmd a b n pos op) = n := by
  ext i hi
  simp only [nField, BitVec.getElem_extractLsb', getLsbD_packCmd]
  simp [hi, show ¬ 16 + i < 8 by omega, show 16 + i < 24 by omega]

@[simp] theorem bField_packCmd : bField (packCmd a b n pos op) = b := by
  ext i hi
  simp only [bField, BitVec.getElem_extractLsb', getLsbD_packCmd]
  simp [hi, show ¬ 24 + i < 8 by omega, show ¬ 24 + i < 16 by omega, show 24 + i < 32 by omega]

@[simp] theorem aField_packCmd : aField (packCmd a b n pos op) = a := by
  ext i hi
  simp only [aField, BitVec.getElem_extractLsb', getLsbD_packCmd]
  simp [hi, show ¬ 32 + i < 8 by omega, show ¬ 32 + i < 16 by omega, show ¬ 32 + i < 24 by omega]

/-- `X` is the low byte of `A`. -/
theorem xField_eq (cmd : Cmd) : xField cmd = (aField cmd).setWidth 8 := by
  ext i hi
  simp [xField, aField]
  omega

@[simp] theorem xField_packCmd : xField (packCmd a b n pos op) = a.setWidth 8 := by
  rw [xField_eq, aField_packCmd]

@[simp] theorem setWidth_byteInA (x : Byte) : (byteInA x).setWidth 8 = x := by
  ext i
  simp [byteInA]

/-- Masking a packed word masks its fields. -/
theorem packCmd_and (a' : Word) (b' n' pos' op' : Byte) :
    packCmd a b n pos op &&& packCmd a' b' n' pos' op' =
      packCmd (a &&& a') (b &&& b') (n &&& n') (pos &&& pos') (op &&& op') := by
  apply BitVec.eq_of_getLsbD_eq
  intro i _
  simp only [BitVec.getLsbD_and, getLsbD_packCmd]
  repeat' split
  all_goals rfl

/-- A word is the pack of its fields. -/
theorem packCmd_fields (cmd : Cmd) :
    packCmd (aField cmd) (bField cmd) (nField cmd) (posField cmd) (opField cmd) = cmd := by
  apply BitVec.eq_of_getLsbD_eq
  intro i hi
  simp only [getLsbD_packCmd, aField, bField, nField, posField, opField, BitVec.getLsbD_extractLsb']
  repeat' split
  all_goals
    rw [decide_eq_true (by omega), Bool.true_and]
    congr 1
    omega

/-- A byte operand read from a word, as the low byte of `A`. -/
theorem byteInA_xField (cmd : Cmd) : byteInA (xField cmd) = aField cmd &&& 0x000000FF#32 := by
  apply BitVec.eq_of_getLsbD_eq
  intro i hi
  have h : (0x000000FF#32).getLsbD i = decide (i < 8) := by revert i; decide
  simp only [xField_eq, byteInA, BitVec.getLsbD_setWidth, BitVec.getLsbD_and, h]
  by_cases h8 : i < 8 <;> simp [h8, hi]

/-- A code that is none of the twenty is reserved (30_encoding.md R72). -/
theorem reserved_of_not_mem : ∀ op : Byte,
    op ∉ [0x00#8, 0x01#8, 0x02#8, 0x03#8, 0x04#8, 0x05#8, 0x06#8, 0x07#8, 0x08#8, 0x09#8,
      0x10#8, 0x11#8, 0x12#8, 0x13#8, 0x14#8, 0x15#8, 0x16#8, 0x17#8, 0x18#8, 0x19#8] →
    (0x0A ≤ op.toNat ∧ op.toNat ≤ 0x0F) ∨ 0x1A ≤ op.toNat := by decide +kernel

/-- Everything the decoder can answer, by operation code: a property of a code and an answer holds of
`OP` and the decoder's answer when it holds of the twenty rows and of the reserved codes. -/
theorem decodeWith_cases {P : Byte → Except DecodeError Instr → Prop} (aux : Bool) (cmd : Cmd)
    (h00 : P 0x00#8 (.ok (.setBit (xField cmd) (posField cmd))))
    (h01 : P 0x01#8 (.ok (.clearBit (xField cmd) (posField cmd))))
    (h02 : P 0x02#8 (.ok (.toggleBit (xField cmd) (posField cmd))))
    (h03 : P 0x03#8 (.ok (.getBitStatus (xField cmd) (posField cmd))))
    (h04 : P 0x04#8 (.ok (.isEven (xField cmd))))
    (h05 : P 0x05#8 (.ok (.countSetBits (xField cmd))))
    (h06 : P 0x06#8 (.ok (.isPowerOf2 (xField cmd))))
    (h07 : P 0x07#8 (.ok (.littleToBigEndian (aField cmd))))
    (h08 : P 0x08#8 (.ok (.setBits (xField cmd) (posField cmd) (nField cmd) (bField cmd))))
    (h09 : P 0x09#8 (.ok (.swapNibbles (xField cmd))))
    (h10 : P 0x10#8 (auxiliary aux 0x10#8 (.formatBinary (xField cmd))))
    (h11 : P 0x11#8 (auxiliary aux 0x11#8 (.add (xField cmd) (bField cmd))))
    (h12 : P 0x12#8 (auxiliary aux 0x12#8 (.subtract (xField cmd) (bField cmd))))
    (h13 : P 0x13#8 (auxiliary aux 0x13#8 (.xorWithoutOperator (xField cmd) (bField cmd))))
    (h14 : P 0x14#8 (auxiliary aux 0x14#8 .sizeOfUsingBitwise))
    (h15 : P 0x15#8 (auxiliary aux 0x15#8 (.multiplyByN (xField cmd) (bField cmd))))
    (h16 : P 0x16#8 (auxiliary aux 0x16#8 (.isNthBitOn (aField cmd) (posField cmd))))
    (h17 : P 0x17#8 (auxiliary aux 0x17#8 (.swap (xField cmd) (bField cmd))))
    (h18 : P 0x18#8 (auxiliary aux 0x18#8 (.clearLsb (xField cmd))))
    (h19 : P 0x19#8 (auxiliary aux 0x19#8 (.findMsb (xField cmd))))
    (reserved : (0x0A ≤ (opField cmd).toNat ∧ (opField cmd).toNat ≤ 0x0F) ∨ 0x1A ≤ (opField cmd).toNat →
      P (opField cmd) (.error (.reservedOp (opField cmd)))) :
    P (opField cmd) (decodeWith aux cmd) := by
  unfold decodeWith
  split
  case h_21 =>
    apply reserved
    apply reserved_of_not_mem
    simp only [List.mem_cons, List.not_mem_nil, or_false]
    simp_all
  all_goals (rename_i h; rw [h]; assumption)

end Sys2Proof
end

