-- ==== Sys2Proof/Laws/State.lean ====
section
/-! SUPPORT. What each update of the state leaves in each field, and what `nextInput` reads. -/

namespace Sys2Proof.Machine

variable (s : State) (v : ResBus) (c : ErrCode) (k : ErrorCause) (a : Answer) (e : EdgeInput)

@[simp] theorem State.respond_res : (s.respond v c).res = v := rfl
@[simp] theorem State.respond_err : (s.respond v c).err = c := rfl
@[simp] theorem State.respond_rvalid : (s.respond v c).rvalid = true := rfl
@[simp] theorem State.respond_inputs : (s.respond v c).inputs = s.inputs := rfl

@[simp] theorem State.respondError_res : (s.respondError k).res = 0#64 := rfl
@[simp] theorem State.respondError_err : (s.respondError k).err = k.code := rfl
@[simp] theorem State.respondError_rvalid : (s.respondError k).rvalid = true := rfl
@[simp] theorem State.respondError_inputs : (s.respondError k).inputs = s.inputs := rfl

@[simp] theorem State.commit_res : (s.commit a).res = a.pair.1 := by cases a <;> rfl
@[simp] theorem State.commit_err : (s.commit a).err = a.pair.2 := by cases a <;> rfl
@[simp] theorem State.commit_rvalid : (s.commit a).rvalid = true := by cases a <;> rfl
@[simp] theorem State.commit_inputs : (s.commit a).inputs = s.inputs := by cases a <;> rfl

@[simp] theorem State.resetRegs_res : s.resetRegs.res = 0#64 := rfl
@[simp] theorem State.resetRegs_err : s.resetRegs.err = errOk := rfl
@[simp] theorem State.resetRegs_rvalid : s.resetRegs.rvalid = false := rfl
@[simp] theorem State.resetRegs_inputs : s.resetRegs.inputs = s.inputs := rfl

@[simp] theorem State.idle_res : s.idle.res = s.res := rfl
@[simp] theorem State.idle_err : s.idle.err = s.err := rfl
@[simp] theorem State.idle_rvalid : s.idle.rvalid = false := rfl
@[simp] theorem State.idle_inputs : s.idle.inputs = s.inputs := rfl

@[simp] theorem State.dropInput_res : s.dropInput.res = s.res := rfl
@[simp] theorem State.dropInput_err : s.dropInput.err = s.err := rfl
@[simp] theorem State.dropInput_rvalid : s.dropInput.rvalid = s.rvalid := rfl
@[simp] theorem State.dropInput_inputs : s.dropInput.inputs = s.inputs.tail := rfl

@[simp] theorem State.present_res : (s.present e).res = s.res := rfl
@[simp] theorem State.present_err : (s.present e).err = s.err := rfl
@[simp] theorem State.present_rvalid : (s.present e).rvalid = s.rvalid := rfl
@[simp] theorem State.present_inputs : (s.present e).inputs = e :: s.inputs.tail := rfl

/-- The next edge reads what was presented for it. -/
@[simp] theorem State.present_nextInput : (s.present e).nextInput = e := rfl

theorem State.nextInput_cons {es : List EdgeInput} (h : s.inputs = e :: es) : s.nextInput = e := by
  simp [State.nextInput, h]

theorem State.nextInput_nil (h : s.inputs = []) : s.nextInput = idleEdge := by
  simp [State.nextInput, h]

end Sys2Proof.Machine
end

