-- ==== Sys2Proof/Laws/Ops.lean ====
section
/-! SUPPORT. One lemma per shared operation, saying once everything it can do. -/

namespace Sys2Proof.Machine

/-- A commit writes the answer's pair and sets `RVALID`; nothing else. -/
theorem State.commit_eq_respond (s : State) (a : Answer) :
    s.commit a = s.respond a.pair.1 a.pair.2 := by cases a <;> rfl

/-- Every command completes in one next state: its answer, committed. -/
theorem exec_eq_commit (i : Instr) (s : State) : exec i s = .next (s.commit (answer i)) := by
  cases i <;> rfl

/-- An accepting edge commits the answer to the word, whatever the word. -/
theorem accept_eq_commit (aux : Bool) (cmd : Cmd) (s : State) :
    accept aux cmd s = .next (s.commit (answerWord aux cmd)) := by
  unfold accept answerWord
  cases decodeWith aux cmd with
  | ok i => exact exec_eq_commit i s
  | error e => rfl

/-- A host that reads a good response gets its result; after an error it gets none. -/
theorem State.rspResult_of_ok {s : State} (h : s.err = 0b00#2) : s.rspResult = some s.res :=
  if_pos h

theorem State.rspResult_of_error {s : State} (h : s.err ≠ 0b00#2) : s.rspResult = none :=
  if_neg h

/-- A pair reads as a result beside `ERR_OK`, and as a fault beside any other code. -/
theorem Response.ofPair_of_ok {p : ResBus × ErrCode} (h : p.2 = 0b00#2) :
    Response.ofPair p = .result p.1 := if_pos h

theorem Response.ofPair_of_error {p : ResBus × ErrCode} (h : p.2 ≠ 0b00#2) :
    Response.ofPair p = .fault p.2 := if_neg h

/-- A pair reads as free of an error exactly when its code is `ERR_OK`. -/
theorem Response.errorCode_ofPair_eq_none_iff {p : ResBus × ErrCode} :
    (Response.ofPair p).errorCode = none ↔ p.2 = 0b00#2 := by
  by_cases h : p.2 = 0b00#2
  · simp [ofPair_of_ok h, errorCode, h]
  · simp [ofPair_of_error h, errorCode, h]

/-- The result a host may use is the result the response reads as. -/
theorem State.rspResult_eq_some_iff {s : State} {v : ResBus} :
    s.rspResult = some v ↔ s.response = .result v := by
  by_cases h : s.err = errOk <;>
    simp [State.rspResult, State.response, State.rspRes, State.rspErr, Response.ofPair, h]

/-- After a commit the outputs read as the answer's pair. -/
theorem State.commit_response (s : State) (a : Answer) :
    (s.commit a).response = .ofPair a.pair := by cases a <;> rfl

/-- The low byte of a zero-extended Byte is that Byte, which is what a host feeds back. -/
theorem State.respond_rspByte (s : State) (v : Byte) (c : ErrCode) :
    (s.respond (zext64 v) c).rspByte = v := by
  ext i hi
  simp [State.rspByte, lane, zext64, hi]
  omega

/-- The two answers under a precondition. -/
theorem Answer.provided_of_true {ok : Bool} (h : ok = true) (r : Result) :
    Answer.provided ok r = .result r := by simp [Answer.provided, h]

theorem Answer.provided_of_false {ok : Bool} (h : ok = false) (r : Result) :
    Answer.provided ok r = .error .precond := by simp [Answer.provided, h]

/-- The error code of an answer says which kind it is. -/
theorem Answer.pair_result (r : Result) : (Answer.result r).pair = (r.toBus, 0b00#2) := rfl
theorem Answer.pair_precond : (Answer.error .precond).pair = (0#64, 0b10#2) := rfl
theorem Answer.pair_illegalOp : (Answer.error .illegalOp).pair = (0#64, 0b01#2) := rfl

/-- No command of the unit raises ILLEGAL_OP by its own meaning. -/
theorem Answer.provided_ne_illegalOp (ok : Bool) (r : Result) :
    Answer.provided ok r ≠ .error .illegalOp := by
  cases ok <;> simp [Answer.provided]

theorem posInByte_iff (pos : Byte) : posInByte pos = true ↔ pos.toNat ≤ 7 := by
  simp [posInByte, u]

theorem posInWord_iff (pos : Byte) : posInWord pos = true ↔ pos.toNat ≤ 31 := by
  simp [posInWord, u]

theorem windowInByte_iff (p n : Byte) :
    windowInByte p n = true ↔ p.toNat ≤ 7 ∧ n.toNat ≤ p.toNat + 1 := by
  simp [windowInByte, u]

/-- The window's mask, bit by bit (42_permute_and_field.md R141). -/
theorem getLsbD_windowMask : ∀ p < 8, ∀ n < 9, n ≤ p + 1 → ∀ i < 8,
    (windowMask p n).getLsbD i = decide (p + 1 - n ≤ i ∧ i ≤ p) := by decide +kernel

/-- A Byte with a set bit has a highest one, and the scan finds it (43_aux_bit_ops.md R166). -/
theorem highestOneBelow_eight : ∀ x : Byte, x ≠ 0x00#8 →
    ∃ k < 8, highestOneBelow x 8 = some k ∧ x.getLsbD k = true ∧
      ∀ j < 8, k < j → x.getLsbD j = false := by decide +kernel

/-- Clearing the lowest set bit takes one from the count (43_aux_bit_ops.md R165). -/
theorem popcount_withoutLowestOne : ∀ x : Byte,
    popcount (withoutLowestOne x) = popcount x - 1 ∧ popcount x ≤ 8 := by decide +kernel

end Sys2Proof.Machine
end

