-- ==== Sys2Proof/Laws/PerInstr.lean ====
section
/-! SUPPORT. Per-instruction family `Encoding`: the encoder writes the table's operation code, and the
canonical encoding has every ignored bit zero (30_encoding.md R64, R65, R70). -/

namespace Sys2Proof.Laws.Encoding

/-- The word carries the command's operation code and sets only bits the command reads. -/
def Statement (i : Instr) : Prop :=
  opField (encode i) = i.opcode ∧ encode i &&& i.readMask = encode i

theorem byte_and_ones (b : Byte) : b &&& 0xFF#8 = b := BitVec.and_allOnes

theorem word_and_ones (w : Word) : w &&& 0xFFFFFFFF#32 = w := BitVec.and_allOnes

theorem byteInA_and_low (x : Byte) : byteInA x &&& 0x000000FF#32 = byteInA x := by
  have h := byteInA_xField (packCmd (byteInA x) 0 0 0 0)
  rw [xField_packCmd, setWidth_byteInA, aField_packCmd] at h
  exact h.symm

/-- Packed words satisfy the statement when their fields fit the mask's. -/
theorem packed {a a' : Word} {b b' n n' pos pos' op : Byte} (ha : a &&& a' = a) (hb : b &&& b' = b)
    (hn : n &&& n' = n) (hp : pos &&& pos' = pos) :
    opField (packCmd a b n pos op) = op ∧
      packCmd a b n pos op &&& packCmd a' b' n' pos' 0xFF#8 = packCmd a b n pos op := by
  rw [opField_packCmd, packCmd_and, ha, hb, hn, hp, byte_and_ones]
  exact ⟨rfl, rfl⟩

theorem setBit (x pos : Byte) : Statement (.setBit x pos) :=
  packed (byteInA_and_low x) rfl rfl (byte_and_ones pos)
theorem clearBit (x pos : Byte) : Statement (.clearBit x pos) :=
  packed (byteInA_and_low x) rfl rfl (byte_and_ones pos)
theorem toggleBit (x pos : Byte) : Statement (.toggleBit x pos) :=
  packed (byteInA_and_low x) rfl rfl (byte_and_ones pos)
theorem getBitStatus (x pos : Byte) : Statement (.getBitStatus x pos) :=
  packed (byteInA_and_low x) rfl rfl (byte_and_ones pos)
theorem isEven (x : Byte) : Statement (.isEven x) :=
  packed (byteInA_and_low x) rfl rfl rfl
theorem countSetBits (x : Byte) : Statement (.countSetBits x) :=
  packed (byteInA_and_low x) rfl rfl rfl
theorem isPowerOf2 (x : Byte) : Statement (.isPowerOf2 x) :=
  packed (byteInA_and_low x) rfl rfl rfl
theorem littleToBigEndian (w : Word) : Statement (.littleToBigEndian w) :=
  packed (word_and_ones w) rfl rfl rfl
theorem setBits (dest p n src : Byte) : Statement (.setBits dest p n src) :=
  packed (byteInA_and_low dest) (byte_and_ones src) (byte_and_ones n) (byte_and_ones p)
theorem swapNibbles (x : Byte) : Statement (.swapNibbles x) :=
  packed (byteInA_and_low x) rfl rfl rfl
theorem formatBinary (x : Byte) : Statement (.formatBinary x) :=
  packed (byteInA_and_low x) rfl rfl rfl
theorem add (x y : Byte) : Statement (.add x y) :=
  packed (byteInA_and_low x) (byte_and_ones y) rfl rfl
theorem subtract (x y : Byte) : Statement (.subtract x y) :=
  packed (byteInA_and_low x) (byte_and_ones y) rfl rfl
theorem xorWithoutOperator (x y : Byte) : Statement (.xorWithoutOperator x y) :=
  packed (byteInA_and_low x) (byte_and_ones y) rfl rfl
theorem sizeOfUsingBitwise : Statement .sizeOfUsingBitwise :=
  packed rfl rfl rfl rfl
theorem multiplyByN (x y : Byte) : Statement (.multiplyByN x y) :=
  packed (byteInA_and_low x) (byte_and_ones y) rfl rfl
theorem isNthBitOn (w : Word) (pos : Byte) : Statement (.isNthBitOn w pos) :=
  packed (word_and_ones w) rfl rfl (byte_and_ones pos)
theorem swap (x y : Byte) : Statement (.swap x y) :=
  packed (byteInA_and_low x) (byte_and_ones y) rfl rfl
theorem clearLsb (x : Byte) : Statement (.clearLsb x) :=
  packed (byteInA_and_low x) rfl rfl rfl
theorem findMsb (x : Byte) : Statement (.findMsb x) :=
  packed (byteInA_and_low x) rfl rfl rfl

end Sys2Proof.Laws.Encoding
end

