-- ==== Sys2Proof/Tests/Slice0.lean ====
section
/-! SUPPORT. The model's own tests. Expected values are the spec's: the vectors of 95_test_vectors.md
named in the comments, its programs P2, P3 and P6, and the encodings of 30_encoding.md. Then, for each
statement with hypotheses, a state and operands that meet them. -/

namespace Sys2Proof.Tests

open Sys2Proof Sys2Proof.Machine

/-- A state that no reset has cleaned: the start state of program P6. -/
def dirty : State :=
  { res := 0x0123456789ABCDEF#64, err := 0b11#2, rvalid := true, inputs := [] }

/-- The registers of a next state. -/
def shown : Host.Outcome State Fault Refusal → Option (ResBus × ErrCode × Bool)
  | .next t => some (t.res, t.err, t.rvalid)
  | .fault _ => none
  | .refused _ => none

/-- The registers after a step that presents one command to the unit of program P6. -/
def respond (cmd : Nat) : Option (ResBus × ErrCode × Bool) :=
  shown (step (dirty.withFetchWord 64 cmd))

/-! ## Decoding: words written out from 30_encoding.md R61, R64, R65 -/

theorem test_decode_set_bit : decode 0xFFFFFF0000000000#64 = .ok (.setBit 0x00 0x00) := by decide
theorem test_decode_clear_bit : decode 0x000000FF00000701#64 = .ok (.clearBit 0xFF 7) := by decide
theorem test_decode_toggle_bit : decode 0x000000A500000102#64 = .ok (.toggleBit 0xA5 1) := by decide
theorem test_decode_get_bit_status : decode 0x000000FF0000C803#64 = .ok (.getBitStatus 0xFF 200) := by decide
theorem test_decode_is_even : decode 0x000001FF00000004#64 = .ok (.isEven 0xFF) := by decide
theorem test_decode_count_set_bits : decode 0x0000000F00000005#64 = .ok (.countSetBits 15) := by decide
theorem test_decode_is_power_of_2 : decode 0x0000018000000006#64 = .ok (.isPowerOf2 0x80) := by decide
theorem test_decode_little_to_big_endian : decode 0x12345678FFFFFF07#64 = .ok (.littleToBigEndian 0x12345678) := by decide
theorem test_decode_set_bits : decode 0x000000AAA7030608#64 = .ok (.setBits 0xAA 6 3 0xA7) := by decide
theorem test_decode_swap_nibbles : decode 0x0000123400000009#64 = .ok (.swapNibbles 0x34) := by decide
theorem test_decode_format_binary : decode 0x0000001200000010#64 = .ok (.formatBinary 0x12) := by decide
theorem test_decode_add : decode 0x0000007F01000011#64 = .ok (.add 0x7F 1) := by decide
theorem test_decode_subtract : decode 0x0000000305000012#64 = .ok (.subtract 3 5) := by decide
theorem test_decode_xor_without_operator : decode 0x000000F03C000013#64 = .ok (.xorWithoutOperator 0xF0 0x3C) := by decide
theorem test_decode_size_of_using_bitwise : decode 0xFFFFFFFFFFFFFF14#64 = .ok .sizeOfUsingBitwise := by decide
theorem test_decode_multiply_by_n : decode 0x000000C803000015#64 = .ok (.multiplyByN 0xC8 3) := by decide
theorem test_decode_is_nth_bit_on : decode 0x8000000000001F16#64 = .ok (.isNthBitOn 0x80000000 31) := by decide
theorem test_decode_swap : decode 0x000000ABCD000017#64 = .ok (.swap 0xAB 0xCD) := by decide
theorem test_decode_clear_lsb : decode 0x000000AA00000018#64 = .ok (.clearLsb 0xAA) := by decide
theorem test_decode_find_msb : decode 0x0000007F00000019#64 = .ok (.findMsb 0x7F) := by decide
theorem test_decode_reserved_after_core : decode 0x000000000000000A#64 = .error (.reservedOp 0x0A) := by decide
theorem test_decode_reserved_after_auxiliary : decode 0x000000000000001A#64 = .error (.reservedOp 0x1A) := by decide
theorem test_decodeTableWord : decodeTableWord 8 0x19 = some (.findMsb 0) := by decide

/-! ## Well-formedness: an auxiliary command on a unit without the auxiliary group -/

theorem test_wellFormed_refuses_auxiliary : Instr.wellFormedWith false (.add 5 3) = false := by decide
theorem test_wellFormed_accepts_core : Instr.wellFormedWith false (.setBit 0 2) = true := by decide
theorem test_wellFormed_accepts_auxiliary : Instr.wellFormed (.add 5 3) = true := by decide

/-! ## One command each, from the unclean state: vectors V and literals S of 95_test_vectors.md -/

theorem test_set_bit_top : respond 0x0000000000000700 = some (0x80#64, 0#2, true) := by decide  -- V1.2
theorem test_set_bit_out_of_range : respond 0x0000000000000800 = some (0#64, 2#2, true) := by decide  -- V1.3
theorem test_clear_bit_top : respond 0x000000FF00000701 = some (0x7F#64, 0#2, true) := by decide  -- V2.2
theorem test_clear_bit_out_of_range : respond 0x000000FF00000801 = some (0#64, 2#2, true) := by decide  -- V2.4
theorem test_toggle_bit_top : respond 0x000000A500000702 = some (0x25#64, 0#2, true) := by decide  -- V3.2
theorem test_toggle_bit_out_of_range : respond 0x000000A500000802 = some (0#64, 2#2, true) := by decide  -- V3.5
theorem test_get_bit_status_top : respond 0x0000008100000703 = some (1#64, 0#2, true) := by decide  -- V4.2
theorem test_get_bit_status_out_of_range : respond 0x0000008100000803 = some (0#64, 2#2, true) := by decide  -- V4.4
theorem test_is_even_reads_X : respond 0x0000010000000004 = some (1#64, 0#2, true) := by decide  -- V5.5
theorem test_is_even_odd : respond 0x000000FF00000004 = some (0#64, 0#2, true) := by decide  -- V5.4
theorem test_count_set_bits_all : respond 0x000000FF00000005 = some (8#64, 0#2, true) := by decide  -- V6.4
theorem test_count_set_bits_reads_X : respond 0xFFFFFF0000000005 = some (0#64, 0#2, true) := by decide  -- V6.7
theorem test_is_power_of_2_zero : respond 0x0000000000000006 = some (0#64, 0#2, true) := by decide  -- V6.8
theorem test_is_power_of_2_top : respond 0x0000018000000006 = some (1#64, 0#2, true) := by decide  -- V6.15
theorem test_little_to_big_endian : respond 0x12345678FFFFFF07 = some (0x78563412#64, 0#2, true) := by decide  -- V7.9
theorem test_little_to_big_endian_bits_kept : respond 0x8000000100000007 = some (0x01000080#64, 0#2, true) := by decide  -- V7.5
theorem test_set_bits_example : respond 0xFFFFFFAAA7030608 = some (0xFA#64, 0#2, true) := by decide  -- V8.15
theorem test_set_bits_below_zero : respond 0x000000AA05040208 = some (0#64, 2#2, true) := by decide  -- V8.10
theorem test_swap_nibbles : respond 0x0000123400000009 = some (0x43#64, 0#2, true) := by decide  -- V9.7
theorem test_swap_nibbles_equal : respond 0x000000AA00000009 = some (0xAA#64, 0#2, true) := by decide  -- S19
theorem test_format_binary : respond 0x0000000100000010 = some (0x3130303030303030#64, 0#2, true) := by decide  -- V10.4
theorem test_format_binary_example : respond 0x000000AA00000010 = some (0x3031303130313031#64, 0#2, true) := by decide  -- V10.3
theorem test_add_wraps : respond 0x0000007F01000011 = some (0x80#64, 0#2, true) := by decide  -- V11.1
theorem test_add_negative : respond 0x000000FFFF000011 = some (0xFE#64, 0#2, true) := by decide  -- V11.4
theorem test_subtract_borrows : respond 0x0000000305000012 = some (0xFE#64, 0#2, true) := by decide  -- V11.10
theorem test_subtract_lowest : respond 0x0000000080000012 = some (0x80#64, 0#2, true) := by decide  -- V11.12
theorem test_xor_without_operator : respond 0x000000F03C000013 = some (0xCC#64, 0#2, true) := by decide  -- V12.5
theorem test_size_of_using_bitwise : respond 0xFFFFFFFFFFFFFF14 = some (1#64, 0#2, true) := by decide  -- V12.7
theorem test_multiply_by_n_wraps : respond 0x000000C803000015 = some (0x58#64, 0#2, true) := by decide  -- V12.14
theorem test_multiply_by_n_low_byte : respond 0x000000FFFF000015 = some (1#64, 0#2, true) := by decide  -- V12.9
theorem test_is_nth_bit_on_top : respond 0x8000000000001F16 = some (1#64, 0#2, true) := by decide  -- V13.1
theorem test_is_nth_bit_on_out_of_range : respond 0xFFFFFFFF00002016 = some (0#64, 2#2, true) := by decide  -- V13.5
theorem test_swap : respond 0x000000ABCD000017 = some (0xABCD#64, 0#2, true) := by decide  -- V14.3
theorem test_swap_example : respond 0x0000000503000017 = some (0x0503#64, 0#2, true) := by decide  -- S17
theorem test_clear_lsb : respond 0x0000000C00000018 = some (8#64, 0#2, true) := by decide  -- V14.8
theorem test_clear_lsb_zero : respond 0x0000000000000018 = some (0#64, 0#2, true) := by decide  -- S20
theorem test_find_msb_zero : respond 0x0000000000000019 = some (0xFF#64, 0#2, true) := by decide  -- V14.10
theorem test_find_msb : respond 0x0000007F00000019 = some (6#64, 0#2, true) := by decide  -- V14.15
theorem test_reserved_gap : respond 0x000000000000FF0A = some (0#64, 1#2, true) := by decide  -- V15.7
theorem test_reserved_top : respond 0xFFFFFFFFFFFFFFFF = some (0#64, 1#2, true) := by decide  -- V15.6

/-! ## Edges: programs P2, P3, P6, and the unit without the auxiliary group -/

-- P6 edge 1
theorem test_idle_keeps_response : shown (step dirty) = some (0x0123456789ABCDEF#64, 0b11#2, false) := by decide
-- P3 edge 4
theorem test_reset_wins :
    shown (edge true { rst := true, cmdValid := true, cmd := 0x200#64 } dirty) = some (0#64, 0b00#2, false) := by decide
-- P2 edges 3 and 4: an error leaves no trace
theorem test_error_not_sticky :
    responses 2 { State.reset with inputs := [commandEdge 0x000000AA05040208#64, commandEdge 0x000000AAA7030608#64] } =
      [.fault 0b10#2, .result 0xFA#64] := by decide
-- P2: the record of its errors
theorem test_errorsSeen :
    errorsSeen 2 { State.reset with inputs := [commandEdge 0x800#64, commandEdge 0x000000AA0000020A#64] } =
      [0b10#2, 0b01#2] := by decide
-- section 2, after V15: add 5, 3 with AUX_PRESENT = 0
theorem test_no_auxiliary_group : F false 0x0000000503000011#64 = (0#64, 0b01#2) := by decide
theorem test_result_unreadable_after_error :
    State.rspResult { State.reset with err := 0b10#2, rvalid := true } = none := by decide

/-! ## Assembler lines of 30_encoding.md R75, R76 and the programs -/

theorem test_line_set_bits :
    assembleLine "set_bits 170, 6, 3, 167" = some (commandEdge 0x000000AAA7030608#64) := by decide
theorem test_line_negative : assembleLine "add -1, -128" = some (commandEdge 0x000000FF80000011#64) := by decide
theorem test_line_radix : assembleLine "bit_field_insert 0xAA, 0b110, 3, 0xa7" = assembleLine "set_bits 170, 6, 3, 167" := by
  decide
theorem test_line_raw : assembleLine ".cmd 0xFFFFFFFFFFFFFF14" = some (commandEdge 0xFFFFFFFFFFFFFF14#64) := by decide
theorem test_line_does_not_fit : assembleLine "set_bit 256, 2" = none := by decide
theorem test_line_negative_byte : assembleLine "set_bit -1, 2" = none := by decide
theorem test_line_missing_argument : assembleLine "add 5" = none := by decide

/-! ## Witnesses: operands at the edges of the hypotheses of the statements -/

theorem witness_SetBitForcesBitToOne :
    (0x0000000000000700#64).extractLsb' 0 8 = 0x00#8 ∧ (7#8).toNat ≤ 7 ∧ 7 < (8#8).toNat ∧
    shown (exec (.setBit 0x81#8 7#8) dirty) ≠ none ∧ shown (exec (.setBit 0x81#8 8#8) dirty) = some (0#64, 0b10#2, true) := by decide
theorem witness_ClearBitForcesBitToZero :
    (0x000000FF00000701#64).extractLsb' 0 8 = 0x01#8 ∧ (7#8).toNat ≤ 7 ∧ 7 < (8#8).toNat ∧
    shown (exec (.clearBit 0x81#8 7#8) dirty) ≠ none ∧ shown (exec (.clearBit 0x81#8 8#8) dirty) = some (0#64, 0b10#2, true) := by decide
theorem witness_ToggleBitFlipsBit :
    (0x000000A500000702#64).extractLsb' 0 8 = 0x02#8 ∧ (7#8).toNat ≤ 7 ∧ 7 < (8#8).toNat ∧
    shown (exec (.toggleBit 0x81#8 7#8) dirty) ≠ none ∧ shown (exec (.toggleBit 0x81#8 8#8) dirty) = some (0#64, 0b10#2, true) := by decide
theorem witness_GetBitStatusReturnsBit :
    (0x0000008100000703#64).extractLsb' 0 8 = 0x03#8 ∧ (7#8).toNat ≤ 7 ∧ 7 < (8#8).toNat ∧
    shown (exec (.getBitStatus 0x81#8 7#8) dirty) ≠ none ∧ shown (exec (.getBitStatus 0x81#8 8#8) dirty) = some (0#64, 0b10#2, true) := by decide
theorem witness_IsNthBitOnReturnsBitOfWord :
    (0x8000000000001F16#64).extractLsb' 0 8 = 0x16#8 ∧ (31#8).toNat ≤ 31 ∧ 31 < (32#8).toNat ∧
    shown (exec (.isNthBitOn 0x80000000#32 31#8) dirty) = some (1#64, 0b00#2, true) ∧
    shown (exec (.isNthBitOn 0xFFFFFFFF#32 32#8) dirty) = some (0#64, 0b10#2, true) := by decide
theorem witness_SetBitsReplacesWindow :
    (0x000000AAA7030608#64).extractLsb' 0 8 = 0x08#8 ∧
    ((7#8).toNat ≤ 7 ∧ (8#8).toNat ≤ (7#8).toNat + 1) ∧ ((0#8).toNat ≤ 7 ∧ (0#8).toNat ≤ (0#8).toNat + 1) ∧
    7 < (8#8).toNat ∧ (2#8).toNat + 1 < (4#8).toNat ∧
    shown (exec (.setBits 0xAA#8 7#8 8#8 0x5C#8) dirty) = some (0x5C#64, 0b00#2, true) ∧
    shown (exec (.setBits 0xAA#8 0#8 0#8 0x05#8) dirty) = some (0xAA#64, 0b00#2, true) ∧
    shown (exec (.setBits 0xAA#8 8#8 3#8 0x05#8) dirty) = some (0#64, 0b10#2, true) ∧
    shown (exec (.setBits 0xAA#8 2#8 4#8 0x05#8) dirty) = some (0#64, 0b10#2, true) := by decide
theorem witness_IsEvenTestsLowestBit : (0x0000000200000004#64).extractLsb' 0 8 = 0x04#8 := by decide
theorem witness_CountSetBitsCountsOnes : (0x0000000F00000005#64).extractLsb' 0 8 = 0x05#8 := by decide
theorem witness_IsPowerOf2TestsForOneBit : (0x0000000400000006#64).extractLsb' 0 8 = 0x06#8 := by decide
theorem witness_LittleToBigEndianReversesBytes : (0x1234567800000007#64).extractLsb' 0 8 = 0x07#8 := by decide
theorem witness_SwapNibblesExchangesHalves : (0x0000001200000009#64).extractLsb' 0 8 = 0x09#8 := by decide
theorem witness_FormatBinaryWritesEightCharacters : (0x000000AA00000010#64).extractLsb' 0 8 = 0x10#8 := by decide
theorem witness_AddWrapsModulo256 : (0x0000000503000011#64).extractLsb' 0 8 = 0x11#8 := by decide
theorem witness_SubtractWrapsModulo256 : (0x0000000503000012#64).extractLsb' 0 8 = 0x12#8 := by decide
theorem witness_XorWithoutOperatorIsXor : (0x0000000503000013#64).extractLsb' 0 8 = 0x13#8 := by decide
theorem witness_SizeOfUsingBitwiseIsOne : (0xFFFFFFFFFFFFFF14#64).extractLsb' 0 8 = 0x14#8 := by decide
theorem witness_MultiplyByNKeepsLowProduct : (0x0000000509000015#64).extractLsb' 0 8 = 0x15#8 := by decide
theorem witness_SwapReturnsBothExchanged : (0x0000000503000017#64).extractLsb' 0 8 = 0x17#8 := by decide
theorem witness_ClearLsbClearsLowestSetBit : (0x000000AA00000018#64).extractLsb' 0 8 = 0x18#8 := by decide
theorem witness_FindMsbFindsHighestSetBit :
    (0x000000AA00000019#64).extractLsb' 0 8 = 0x19#8 ∧ (0x01#8 ≠ 0x00#8) ∧
    shown (exec (.findMsb 0x01#8) dirty) = some (0#64, 0b00#2, true) := by decide

/-- Reserved codes at both ends of each range, with and without the auxiliary group. -/
theorem witness_ReservedCodesAnswerIllegalOp :
    F true 0x0A#64 = (0#64, 0b01#2) ∧ F true 0x0F#64 = (0#64, 0b01#2) ∧ F true 0x1A#64 = (0#64, 0b01#2) ∧
    F true 0xFF#64 = (0#64, 0b01#2) ∧ F false 0x10#64 = (0#64, 0b01#2) ∧ F false 0x19#64 = (0#64, 0b01#2) := by decide

/-- The first word of each clause, and the last one short of it. -/
theorem witness_PrecondExactlyOutOfRange :
    F true 0x0800#64 = (0#64, 0b10#2) ∧ (F true 0x0700#64).2 = 0b00#2 ∧
    F true 0x0808#64 = (0#64, 0b10#2) ∧ F true 0x090708#64 = (0#64, 0b10#2) ∧ (F true 0x080708#64).2 = 0b00#2 ∧
    F true 0x2016#64 = (0#64, 0b10#2) ∧ (F true 0x1F16#64).2 = 0b00#2 := by decide
theorem witness_ErrorResponseIsZero : (F true 0x0800#64).2 ≠ 0b00#2 ∧ (F true 0x0A#64).2 ≠ 0b00#2 := by decide
theorem witness_FourteenOperationsNeverFail :
    (0x0000000000000004#64).extractLsb' 0 8 ∈ [0x04#8, 0x05#8, 0x06#8, 0x07#8, 0x09#8, 0x10#8, 0x11#8, 0x12#8, 0x13#8,
      0x14#8, 0x15#8, 0x17#8, 0x18#8, 0x19#8] ∧
    (0x0000000000000019#64).extractLsb' 0 8 ∈ [0x04#8, 0x05#8, 0x06#8, 0x07#8, 0x09#8, 0x10#8, 0x11#8, 0x12#8, 0x13#8,
      0x14#8, 0x15#8, 0x17#8, 0x18#8, 0x19#8] := by decide
theorem witness_StepIsEdgeOfNextInput :
    State.inputs { dirty with inputs := [commandEdge 4#64] } = commandEdge 4#64 :: [] ∧ dirty.inputs = [] ∧
    shown (step { dirty with inputs := [commandEdge 4#64] }) = some (1#64, 0b00#2, true) := by decide
theorem witness_StepRunsDecodedCommand :
    (dirty.present (commandEdge 0x0000000503000011#64)).inputs =
      { rst := false, cmdValid := true, cmd := 0x0000000503000011#64 } :: [] ∧
    decode 0x0000000503000011#64 = .ok (.add 5 3) ∧ respond 0x0000000503000011 = some (8#64, 0b00#2, true) := by decide
theorem witness_RvalidPulsesPerCommand :
    idleEdge.rst = false ∧ idleEdge.cmdValid = false ∧
    shown (edge true idleEdge dirty) = some (0x0123456789ABCDEF#64, 0b11#2, false) := by decide
theorem witness_StepKeepsLegalResponse :
    State.reset.LegalResponse ∧ shown (step (State.reset.withFetchWord 64 0x0800)) = some (0#64, 0b10#2, true) ∧
    ¬ dirty.LegalResponse := by decide
theorem witness_ResetOrCommandMakesResponseLegal :
    resetEdge.rst = true ∧ (commandEdge 0x0A#64).cmdValid = true ∧
    shown (edge true resetEdge dirty) = some (0#64, 0b00#2, false) ∧
    shown (edge true (commandEdge 0x0A#64) dirty) = some (0#64, 0b01#2, true) := by decide
theorem witness_DecodeOfEncode :
    Instr.wellFormedWith true (.setBits 170 6 3 167) = true ∧ Instr.wellFormedWith false (.setBits 170 6 3 167) = true ∧
    encode (.setBits 170 6 3 167) = 0x000000AAA7030608#64 := by decide
/-- V8.15 against S16: the ignored `A[31:8]`. -/
theorem witness_IgnoredFieldsHaveNoEffect :
    decodeWith true 0xFFFFFFAAA7030608#64 = .ok (.setBits 170 6 3 167) ∧
    0x000000AAA7030608#64 &&& Instr.readMask (.setBits 170 6 3 167) =
      0xFFFFFFAAA7030608#64 &&& Instr.readMask (.setBits 170 6 3 167) := by decide
theorem witness_OperationCodesAreTwoGroups :
    decodeWith true 0x09#64 = .ok (.swapNibbles 0) ∧ decodeWith true 0x10#64 = .ok (.formatBinary 0) ∧
    decodeWith true 0x19#64 = .ok (.findMsb 0) ∧ decodeWith false 0x10#64 = .error (.reservedOp 0x10) := by decide
theorem witness_WithoutAuxiliaryGroup :
    F false 0x10#64 = (0#64, 0b01#2) ∧ F false 0x19#64 = (0#64, 0b01#2) ∧ F false 0x04#64 = F true 0x04#64 ∧
    F false 0x0A#64 = F true 0x0A#64 := by decide
theorem witness_UpperResultBitsAreZero :
    (F true 0x10#64).1.extractLsb' 32 32 ≠ 0#32 ∧ (F true 0xFFFFFFFF00000007#64).1.extractLsb' 16 16 ≠ 0#16 ∧
    (F true 0xFF00000017#64).1.extractLsb' 8 8 ≠ 0#8 ∧ (F true 0x0A#64).2 ≠ 0b00#2 := by decide
/-- Each clause at an end of its range, answered OK. -/
theorem witness_NarrowResultsAreInRange :
    F true 0x04#64 = (1#64, 0b00#2) ∧ F true 0x8000000703#64 = (1#64, 0b00#2) ∧
    F true 0xFF00000005#64 = (8#64, 0b00#2) ∧ F true 0x14#64 = (1#64, 0b00#2) ∧
    F true 0x19#64 = (0xFF#64, 0b00#2) ∧ F true 0xFF00000019#64 = (7#64, 0b00#2) := by decide
/-- Two commands answered OK, an idle edge between them. -/
theorem witness_ResponsesAreFOfAcceptedCommands :
    SafeRun 3 { dirty with inputs := [commandEdge 0x700#64, idleEdge, commandEdge 0x19#64] } ∧
    responses 3 { dirty with inputs := [commandEdge 0x700#64, idleEdge, commandEdge 0x19#64] } =
      [.result 0x80#64, .result 0xFF#64] := by decide
theorem witness_SetClearToggleLaws : (0#8).toNat ≤ 7 ∧ (7#8).toNat ≤ 7 := by decide
theorem witness_WritersChangeOnlyTheirBit :
    (7#8).toNat ≤ 7 ∧ (0#8).toNat ≤ 7 ∧ (7#8 = 7#8) ∧ ¬ (7#8 = 0#8) := by decide
theorem witness_CountsAndPredicatesAgree :
    0x80#8 ≠ 0x01#8 ∧ shown (exec (.isPowerOf2 0x80#8) dirty) = some (1#64, 0b00#2, true) := by decide
theorem witness_FieldInsertionLaws :
    (7#8).toNat ≤ 7 ∧ (8#8).toNat ≤ (7#8).toNat + 1 ∧ (0#8).toNat ≤ (7#8).toNat + 1 ∧
    (∀ i < (4#8).toNat, (0x0F#8).getLsbD i = (0xFF#8).getLsbD i) ∧ (4#8).toNat ≤ (7#8).toNat + 1 := by decide
theorem witness_ArithmeticInverses : 0 ≤ 7 ∧ 7 ≤ 7 := by decide
/-- For `x = 0x01` the highest bit is 0 and position 7 lies above it. -/
theorem witness_AuxiliaryBitRelations :
    0x01#8 ≠ 0x00#8 ∧ shown (exec (.findMsb 0x01#8) dirty) = some (0#64, 0b00#2, true) ∧
    (0#8).toNat < (7#8).toNat ∧ (7#8).toNat ≤ 7 := by decide
/-- Arguments at both ends of the ranges of R75 ("`-1` is `0xFF`"), and just past them. -/
theorem witness_AssemblerGivesCanonicalEncoding :
    assembleWords "add" [.negative 1, .negative 128] = some (commandEdge 0x000000FF80000011#64) ∧
    assembleWords "subtract" [.negative 128, .negative 1] = some (commandEdge 0x00000080FF000012#64) ∧
    assembleWords "is_nth_bit_on" [.unsigned (2 ^ 32 - 1), .unsigned 255] =
      some (commandEdge 0xFFFFFFFF0000FF16#64) ∧
    assembleWords "set_bits" [.unsigned 255, .unsigned 0, .unsigned 1, .unsigned 254] =
      some (commandEdge 0x000000FFFE010008#64) := by decide
theorem witness_AssemblerRejects :
    assembleWords "subtract" [.unsigned 0, .negative 129] = none ∧
    assembleWords "add" [.unsigned 256, .unsigned 0] = none ∧
    assembleWords "set_bits" [.unsigned 0, .unsigned 0, .unsigned 256, .unsigned 0] = none ∧
    assembleWords "find_msb" [.negative 1] = none ∧
    assembleWords "little_to_big_endian" [.unsigned (2 ^ 32)] = none ∧
    assembleWords "size_of_using_bitwise" [.unsigned 0] = none := by decide
theorem witness_ResetStateShowsNoResponse : resetEdge.rst = true ∧
    shown (edge true resetEdge dirty) = some (0#64, 0b00#2, false) := by decide
theorem witness_SecondNamesAndRawWords :
    assembleWords ".cmd" [.unsigned 10] = some (commandEdge 0x0A#64) ∧
    assembleWords "nibble_swap" [.unsigned 18] = some (commandEdge 0x0000001200000009#64) ∧
    assembleWords "swap_nibbles" [.unsigned 18] = some (commandEdge 0x0000001200000009#64) ∧
    assembleWords "find_msb" [.unsigned 1] = some (commandEdge 0x0000000100000019#64) := by decide

end Sys2Proof.Tests
end

section
/-! PROOFS. The unit without the auxiliary group (00_scope.md R9): its decoder refuses the group's
ten codes and reads every other word as the full unit's decoder does, and so does its `F`. -/

namespace Sys2Proof.Machine

/-- What leaving the group out does to the decoder (30_encoding.md R72). The core rows do not read
`AUX_PRESENT`, and a code reserved with the group present is reserved without it. -/
theorem decodeWith_false (cmd : Cmd) :
    decodeWith false cmd =
      if 0x10 ≤ (opField cmd).toNat ∧ (opField cmd).toNat ≤ 0x19 then
        .error (.reservedOp (opField cmd))
      else decodeWith true cmd := by
  unfold decodeWith
  split
  case h_21 => exact (ite_self _).symm
  case h_11 | h_12 | h_13 | h_14 | h_15 | h_16 | h_17 | h_18 | h_19 | h_20 =>
    rename_i auxCode
    rw [auxCode, if_pos (by decide)]
    rfl
  all_goals
    rename_i coreCode
    rw [coreCode, if_neg (by decide)]

/-- A reserved code answers ILLEGAL_OP with a zero result (60_exceptions.md R202). -/
theorem F_of_reserved {aux : Bool} {cmd : Cmd} {op : Byte}
    (h : decodeWith aux cmd = .error (.reservedOp op)) : F aux cmd = (0#64, 0b01#2) := by
  rw [F, answerWord, h, Answer.pair_illegalOp]

/-- `F` sees `AUX_PRESENT` through the decoder only. -/
theorem F_congr {aux aux' : Bool} {cmd : Cmd} (h : decodeWith aux cmd = decodeWith aux' cmd) :
    F aux cmd = F aux' cmd := by
  rw [F, answerWord, h, F, answerWord]

/-- Settles O44, from what leaving the group out does to the decoder. -/
theorem withoutAuxiliaryGroup : Obligations.WithoutAuxiliaryGroup := by
  intro cmd op
  have hdec := decodeWith_false cmd
  split
  case isTrue auxCode => exact F_of_reserved (hdec.trans (if_pos auxCode))
  case isFalse notAuxCode => exact F_congr (hdec.trans (if_neg notAuxCode))

end Sys2Proof.Machine
end

section
/-! PROOFS. One rising edge (10_state.md R24): what each of its three kinds leaves in the registers,
and from that the wrapper of `F`, the `RVALID` pulse (R28) and the reset values (R32). -/

namespace Sys2Proof.Machine

variable {aux : Bool} {e : EdgeInput} {s : State}

/-- Reset wins, whatever the command port shows. -/
theorem edge_of_rst (rst : e.rst = true) : edge aux e s = .next s.resetRegs :=
  if_pos rst

theorem edge_of_command (noRst : e.rst = false) (command : e.cmdValid = true) :
    edge aux e s = .next (s.respond (F aux e.cmd).1 (F aux e.cmd).2) := by
  simp [edge, noRst, command, accept_eq_commit, State.commit_eq_respond, F]

theorem edge_of_idle (noRst : e.rst = false) (noCommand : e.cmdValid = false) :
    edge aux e s = .next s.idle := by
  simp [edge, noRst, noCommand]

/-- Settles O25, one kind of edge at a time. -/
theorem edgeIsClockedWrapperOfF : Obligations.EdgeIsClockedWrapperOfF := by
  intro aux e s
  split
  case isTrue rst => exact edge_of_rst rst
  case isFalse noRst =>
    have noRst := Bool.eq_false_of_not_eq_true noRst
    split
    case isTrue command => exact edge_of_command noRst command
    case isFalse noCommand => exact edge_of_idle noRst (Bool.eq_false_of_not_eq_true noCommand)

/-- Settles O31, one kind of edge at a time. -/
theorem rvalidPulsesPerCommand : Obligations.RvalidPulsesPerCommand := by
  intro aux e s
  cases rst : e.rst with
  | true => exact ⟨s.resetRegs, edge_of_rst rst, rfl, nofun⟩
  | false =>
    cases command : e.cmdValid with
    | true => exact ⟨_, edge_of_command rst command, rfl, nofun⟩
    | false => exact ⟨s.idle, edge_of_idle rst command, rfl, fun _ _ => ⟨rfl, rfl⟩⟩

/-- Settles O29: the registers and ports are those of the literal `State.reset`, and a reset edge
writes the same values into any state. -/
theorem resetStateShowsNoResponse : Obligations.ResetStateShowsNoResponse :=
  ⟨rfl, rfl, rfl, rfl, rfl, rfl, rfl, fun _ _ _ rst => edge_of_rst rst⟩

end Sys2Proof.Machine
end

section
/-! PROOFS. How many low bits of `RES` a response uses (10_state.md R25, R27): the width of its result
type, which the operation code bounds. -/

namespace Sys2Proof

/-- A code of the auxiliary group decodes only where the group is present (30_encoding.md R72). -/
theorem auxiliary_eq_ok_iff {aux : Bool} {op : Byte} {i j : Instr} :
    auxiliary aux op j = .ok i ↔ aux = true ∧ j = i := by
  cases aux <;> simp [auxiliary]

/-- The code a word decodes by is its own `OP` (30_encoding.md R63). -/
theorem opcode_of_decodeWith {aux : Bool} {cmd : Cmd} {i : Instr}
    (decoded : decodeWith aux cmd = .ok i) : i.opcode = opField cmd := by
  revert decoded
  apply decodeWith_cases (P := fun op decoded => decoded = .ok i → i.opcode = op)
  case reserved => exact fun _ => nofun
  case h10 | h11 | h12 | h13 | h14 | h15 | h16 | h17 | h18 | h19 =>
    intro answered
    obtain ⟨-, rfl⟩ := auxiliary_eq_ok_iff.mp answered
    rfl
  all_goals
    intro answered
    cases answered
    rfl

end Sys2Proof

namespace Sys2Proof.Machine

/-- The bits of `RES` that a result type uses, its top bit the highest (R27). -/
def Result.width : Result → Nat
  | .bit _ => 1
  | .byte _ | .signedByte _ | .small _ => 8
  | .word _ => 32
  | .pair _ _ => 16
  | .chars _ _ _ _ _ _ _ _ => 64

theorem zext64_toNat_lt {w : Nat} (v : BitVec w) : (zext64 v).toNat < 2 ^ w := by
  rw [zext64, BitVec.toNat_setWidth]
  exact (Nat.mod_le _ _).trans_lt v.isLt

theorem Result.toBus_toNat_lt : ∀ r : Result, r.toBus.toNat < 2 ^ r.width
  | .bit b => zext64_toNat_lt (BitVec.ofBool b)
  | .byte v | .signedByte v | .small v => zext64_toNat_lt v
  | .word v => zext64_toNat_lt v
  | .pair first second => zext64_toNat_lt (second ++ first)
  | .chars c0 c1 c2 c3 c4 c5 c6 c7 => (c7 ++ c6 ++ c5 ++ c4 ++ c3 ++ c2 ++ c1 ++ c0).isLt

/-- The bits of `RES` that an answer uses: an error drives zeros (60_exceptions.md R201). -/
def Answer.width : Answer → Nat
  | .result r => r.width
  | .error _ => 0

theorem Answer.pair_toNat_lt : ∀ a : Answer, a.pair.1.toNat < 2 ^ a.width
  | .result r => r.toBus_toNat_lt
  | .error _ => Nat.one_pos

theorem Answer.res_eq_zero_of_error {a : Answer} (h : a.pair.2 ≠ 0b00#2) : a.pair.1 = 0#64 := by
  cases a with
  | result r => exact absurd rfl h
  | error c => rfl

theorem Answer.width_provided_le (ok : Bool) (r : Result) : (Answer.provided ok r).width ≤ r.width := by
  cases ok with
  | true => exact le_rfl
  | false => exact Nat.zero_le _

/-- The most bits of `RES` an operation code's response uses (R25). -/
def resultWidth (op : Byte) : Nat :=
  if op = 0x10#8 then 64 else if op = 0x07#8 then 32 else if op = 0x17#8 then 16 else 8

/-- The codes that allow more than 32, 16 and 8 bits. -/
theorem op_of_lt_resultWidth (op : Byte) :
    (32 < resultWidth op → op = 0x10#8) ∧
    (16 < resultWidth op → op = 0x07#8 ∨ op = 0x10#8) ∧
    (8 < resultWidth op → op = 0x07#8 ∨ op = 0x10#8 ∨ op = 0x17#8) := by
  unfold resultWidth
  split_ifs <;> simp [*]

theorem answer_width_le (i : Instr) : (answer i).width ≤ resultWidth i.opcode := by
  cases i with
  | setBit | clearBit | toggleBit | setBits => exact Answer.width_provided_le _ _
  | getBitStatus | isNthBitOn =>
    exact (Answer.width_provided_le _ _).trans (Nat.le_add_left 1 7)
  | isEven | isPowerOf2 => exact Nat.le_add_left 1 7
  | findMsb x =>
    simp only [answer, findMsbAnswer]
    split <;> exact le_rfl
  | _ => exact le_rfl

theorem answerWord_width_le (aux : Bool) (cmd : Cmd) :
    (answerWord aux cmd).width ≤ resultWidth (opField cmd) := by
  unfold answerWord
  split
  case h_1 i decoded => exact opcode_of_decodeWith decoded ▸ answer_width_le i
  case h_2 => exact Nat.zero_le _

/-- A nonzero slice of `RES` starts inside the bits that `OP` allows. -/
theorem lt_resultWidth_of_extractLsb'_ne_zero {aux : Bool} {cmd : Cmd} {start len : Nat}
    (h : (F aux cmd).1.extractLsb' start len ≠ 0#len) : start < resultWidth (opField cmd) := by
  by_contra outside
  apply h
  have small : (F aux cmd).1.toNat < 2 ^ start :=
    (answerWord aux cmd).pair_toNat_lt.trans_le
      (Nat.pow_le_pow_right Nat.two_pos ((answerWord_width_le aux cmd).trans (not_lt.mp outside)))
  apply BitVec.eq_of_toNat_eq
  simp [Nat.shiftRight_eq_div_pow, Nat.div_eq_of_lt small]

/-- Settles O46: a nonzero slice needs a wide result, and only the named codes have one. -/
theorem upperResultBitsAreZero : Obligations.UpperResultBitsAreZero := by
  intro cmd op r
  obtain ⟨above32, above16, above8⟩ := op_of_lt_resultWidth op
  exact ⟨fun h => above32 (lt_resultWidth_of_extractLsb'_ne_zero h),
    fun h => above16 (lt_resultWidth_of_extractLsb'_ne_zero h),
    fun h => above8 (lt_resultWidth_of_extractLsb'_ne_zero h), Answer.res_eq_zero_of_error⟩

end Sys2Proof.Machine
end

section
/-! PROOFS. Which words decode (30_encoding.md R63, R72): the decoder reads `OP` alone, and the answer
to a word is ILLEGAL_OP exactly where it refuses the code (60_exceptions.md R202). -/

namespace Sys2Proof

/-- The codes of R64, and those of R65 where the auxiliary group is built. -/
def CodeBuilt (aux : Bool) (op : Byte) : Prop :=
  op.toNat ≤ 0x09 ∨ (aux = true ∧ 0x10 ≤ op.toNat ∧ op.toNat ≤ 0x19)

/-- The decoder answers a command on the codes that are built, and the reserved code on all others. -/
theorem decodeWith_ok_or_reserved (aux : Bool) (cmd : Cmd) :
    (CodeBuilt aux (opField cmd) ∧ ∃ i, decodeWith aux cmd = .ok i) ∨
    (¬ CodeBuilt aux (opField cmd) ∧ decodeWith aux cmd = .error (.reservedOp (opField cmd))) := by
  apply decodeWith_cases (P := fun op answered =>
    (CodeBuilt aux op ∧ ∃ i, answered = .ok i) ∨
    (¬ CodeBuilt aux op ∧ answered = .error (.reservedOp op)))
  case reserved =>
    intro isReserved
    refine .inr ⟨?_, rfl⟩
    unfold CodeBuilt
    omega
  case h10 | h11 | h12 | h13 | h14 | h15 | h16 | h17 | h18 | h19 =>
    cases aux with
    | true => exact .inl ⟨.inr (by decide), _, rfl⟩
    | false => exact .inr ⟨by simp [CodeBuilt], rfl⟩
  all_goals exact .inl ⟨.inl (by decide), _, rfl⟩

/-- The reserved ranges of R72 are the codes that are not built. -/
theorem not_codeBuilt_iff {aux : Bool} {op : Byte} :
    ¬ CodeBuilt aux op ↔
      (0x0A ≤ op.toNat ∧ op.toNat ≤ 0x0F) ∨ 0x1A ≤ op.toNat ∨ (aux = false ∧ 0x10 ≤ op.toNat) := by
  cases aux <;> simp [CodeBuilt] <;> omega

theorem exists_decodeWith_eq_ok_iff {aux : Bool} {cmd : Cmd} :
    (∃ i, decodeWith aux cmd = .ok i) ↔ CodeBuilt aux (opField cmd) := by
  rcases decodeWith_ok_or_reserved aux cmd with ⟨built, decoded⟩ | ⟨notBuilt, refused⟩
  · exact iff_of_true decoded built
  · exact iff_of_false (by simp [refused]) notBuilt

/-- How the codes of R64 and R65 are numbered: `OP[4]` tells the group, `OP[7:5]` is zero. -/
theorem Instr.opcode_bits (i : Instr) :
    i.opcode.getLsbD 4 = i.isAux ∧ i.opcode.extractLsb' 5 3 = 0#3 := by
  cases i <;> simp [Instr.opcode, Instr.isAux]

/-- Settles O43, from the two answers of the decoder and the numbering of the codes. -/
theorem operationCodesAreTwoGroups : Obligations.OperationCodesAreTwoGroups := by
  intro aux cmd op
  refine ⟨exists_decodeWith_eq_ok_iff, ?_, fun i decoded => ?_⟩
  · rcases decodeWith_ok_or_reserved aux cmd with ⟨-, decoded⟩ | ⟨-, refused⟩
    · exact .inr decoded
    · exact .inl refused
  · have code : i.opcode = op := opcode_of_decodeWith decoded
    exact ⟨code, code ▸ i.opcode_bits⟩

end Sys2Proof

namespace Sys2Proof.Machine

/-- `ERR_ILLEGAL_OP` is the code of its own cause only (60_exceptions.md R200). -/
theorem Answer.pair_err_eq_illegalOp_iff {a : Answer} :
    a.pair.2 = 0b01#2 ↔ a = .error .illegalOp := by
  rcases a with r | (_ | _) <;> simp [Answer.pair, errOk, ErrorCause.code]

/-- An implemented command answers a result or PRECOND. -/
theorem answer_ne_illegalOp (i : Instr) : answer i ≠ .error .illegalOp := by
  cases i with
  | setBit | clearBit | toggleBit | getBitStatus | setBits | isNthBitOn =>
    exact Answer.provided_ne_illegalOp _ _
  | findMsb x =>
    simp only [answer, findMsbAnswer]
    split <;> exact nofun
  | _ => exact nofun

/-- ILLEGAL_OP is the answer to exactly the codes that are not built. -/
theorem answerWord_eq_illegalOp_iff {aux : Bool} {cmd : Cmd} :
    answerWord aux cmd = .error .illegalOp ↔ ¬ CodeBuilt aux (opField cmd) := by
  rcases decodeWith_ok_or_reserved aux cmd with ⟨built, i, decoded⟩ | ⟨notBuilt, refused⟩
  · rw [answerWord, decoded]
    exact iff_of_false (answer_ne_illegalOp i) (not_not_intro built)
  · rw [answerWord, refused]
    exact iff_of_true rfl notBuilt

/-- Settles O21: ILLEGAL_OP answers the codes that are not built, which are the reserved ranges. -/
theorem reservedCodesAnswerIllegalOp : Obligations.ReservedCodesAnswerIllegalOp := by
  intro aux cmd s op reserved
  have answersIllegalOp : answerWord aux cmd = .error .illegalOp ↔ reserved :=
    answerWord_eq_illegalOp_iff.trans not_codeBuilt_iff
  refine ⟨fun isReserved => ?_, Answer.pair_err_eq_illegalOp_iff.trans answersIllegalOp⟩
  rw [accept_eq_commit, answersIllegalOp.mpr isReserved]
  rfl

end Sys2Proof.Machine
end

section
/-! PROOFS. The command value (30_encoding.md R67) and the ignored bits (R70): a word decodes to a
command exactly when its read bits are the command's canonical encoding. -/

namespace Sys2Proof

/-- Appending on the right shifts the left part up. -/
theorem toNat_append_eq_sum {v w : Nat} (x : BitVec v) (y : BitVec w) :
    (x ++ y).toNat = x.toNat * 2 ^ w + y.toNat := by
  rw [BitVec.toNat_append, ← Nat.shiftLeft_add_eq_or_of_lt y.isLt, Nat.shiftLeft_eq]

/-- Settles O40: each field stands above the ones packed after it. -/
theorem commandValueIsSumOfFields : Obligations.CommandValueIsSumOfFields := by
  refine ⟨by decide, fun a b n pos op => ?_⟩
  simp only [packCmd, toNat_append_eq_sum]
  ring

/-- Masking a word by fields, `OP` among them, leaves a packed word exactly when it does so in each field. -/
theorem and_packCmd_eq_packCmd_iff {a a' : Word} {b b' n n' pos pos' op : Byte} {cmd : Cmd} :
    cmd &&& packCmd a' b' n' pos' 0xFF#8 = packCmd a b n pos op ↔
      aField cmd &&& a' = a ∧ bField cmd &&& b' = b ∧ nField cmd &&& n' = n ∧
      posField cmd &&& pos' = pos ∧ opField cmd = op := by
  have masked : cmd &&& packCmd a' b' n' pos' 0xFF#8 =
      packCmd (aField cmd &&& a') (bField cmd &&& b') (nField cmd &&& n') (posField cmd &&& pos')
        (opField cmd) := by
    conv_lhs => rw [← packCmd_fields cmd]
    rw [packCmd_and, Laws.Encoding.byte_and_ones]
  rw [masked]
  constructor
  · intro same
    exact ⟨by simpa using congrArg aField same, by simpa using congrArg bField same,
      by simpa using congrArg nField same, by simpa using congrArg posField same,
      by simpa using congrArg opField same⟩
  · rintro ⟨rfl, rfl, rfl, rfl, rfl⟩
    rfl

theorem byteInA_inj {x y : Byte} : byteInA x = byteInA y ↔ x = y :=
  ⟨fun same => by simpa using congrArg (BitVec.setWidth 8) same, congrArg byteInA⟩

theorem aField_and_low_eq_byteInA_iff {cmd : Cmd} {x : Byte} :
    aField cmd &&& 0x000000FF#32 = byteInA x ↔ xField cmd = x := by
  rw [← byteInA_xField, byteInA_inj]

/-- A word whose read bits are a command's canonical encoding has the command's code in `OP` and its
operands in their fields, and so decodes to it. -/
theorem decodeWith_of_and_readMask {aux : Bool} {cmd : Cmd} {i : Instr}
    (wf : i.wellFormedWith aux = true) (readBits : cmd &&& i.readMask = encode i) :
    decodeWith aux cmd = .ok i := by
  cases i
  all_goals
    have fields := and_packCmd_eq_packCmd_iff.mp readBits
    simp only [Instr.opcode, BitVec.ofNat_eq_ofNat, aField_and_low_eq_byteInA_iff,
      Laws.Encoding.byte_and_ones, Laws.Encoding.word_and_ones] at fields
  case formatBinary | add | subtract | xorWithoutOperator | sizeOfUsingBitwise | multiplyByN
      | isNthBitOn | swap | clearLsb | findMsb =>
    have present : aux = true := by simpa [Instr.wellFormedWith, Instr.isAux] using wf
    simp [decodeWith, auxiliary, fields, present]
  all_goals simp [decodeWith, fields]

/-- Every bit that a decoded command reads is in its canonical encoding. -/
theorem and_readMask_of_decodeWith {aux : Bool} {cmd : Cmd} {i : Instr}
    (decoded : decodeWith aux cmd = .ok i) : cmd &&& i.readMask = encode i := by
  have code := opcode_of_decodeWith decoded
  revert decoded
  apply decodeWith_cases (P := fun _ answered => answered = .ok i → cmd &&& i.readMask = encode i)
  case reserved => exact fun _ => nofun
  all_goals
    simp only [auxiliary_eq_ok_iff, Except.ok.injEq, and_imp]
    intros
    subst i
    apply and_packCmd_eq_packCmd_iff.mpr
    simp [code, aField_and_low_eq_byteInA_iff, Laws.Encoding.byte_and_ones,
      Laws.Encoding.word_and_ones]

/-- A decoded command is one the unit is built with (00_scope.md R9). -/
theorem wellFormedWith_of_decodeWith {aux : Bool} {cmd : Cmd} {i : Instr}
    (decoded : decodeWith aux cmd = .ok i) : i.wellFormedWith aux = true := by
  revert decoded
  apply decodeWith_cases (P := fun _ answered => answered = .ok i → i.wellFormedWith aux = true)
  case reserved => exact fun _ => nofun
  case h10 | h11 | h12 | h13 | h14 | h15 | h16 | h17 | h18 | h19 =>
    intro answered
    obtain ⟨rfl, -⟩ := auxiliary_eq_ok_iff.mp answered
    rfl
  all_goals
    intro answered
    cases answered
    exact Bool.or_true aux

/-- The decoder's answer, for every word: a command the unit is built with, and its read bits. -/
theorem decodeWith_eq_ok_iff {aux : Bool} {cmd : Cmd} {i : Instr} :
    decodeWith aux cmd = .ok i ↔
      i.wellFormedWith aux = true ∧ cmd &&& i.readMask = encode i :=
  ⟨fun decoded => ⟨wellFormedWith_of_decodeWith decoded, and_readMask_of_decodeWith decoded⟩,
    fun ⟨wf, readBits⟩ => decodeWith_of_and_readMask wf readBits⟩

/-- Settles O42: the decoder's answer depends on the read bits only. -/
theorem ignoredFieldsHaveNoEffect : Obligations.IgnoredFieldsHaveNoEffect := by
  intro aux c i decoded
  obtain ⟨wf, readBits⟩ := decodeWith_eq_ok_iff.mp decoded
  refine ⟨wf, readBits.symm, fun d sameBits => ?_⟩
  have alike : decodeWith aux d = .ok i := decodeWith_eq_ok_iff.mpr ⟨wf, sameBits.trans readBits⟩
  exact ⟨alike, fun s => by rw [Machine.accept, Machine.accept, alike, decoded]⟩

end Sys2Proof
end

section
/-! PROOFS. The names of an assembler line (30_encoding.md R75, R76): a name assembles by its form in
the table or is one of the three other lines. -/

namespace Sys2Proof.Machine

/-- Two names with one form in the table, none of them `.cmd`, `idle` or `reset`, are one name. -/
theorem assembleWords_congr {name name' : String} {form : List Arg → Option Instr}
    (found : forms.find? (fun f => f.1 == name) = some (name, form))
    (found' : forms.find? (fun f => f.1 == name') = some (name', form))
    (other : name ≠ ".cmd" ∧ name ≠ "idle" ∧ name ≠ "reset")
    (other' : name' ≠ ".cmd" ∧ name' ≠ "idle" ∧ name' ≠ "reset") (args : List Arg) :
    assembleWords name args = assembleWords name' args := by
  apply Option.ext
  intro e
  rw [assembleWords_eq_some_iff found other, assembleWords_eq_some_iff found' other']

theorem Arg.asCmd_unsigned_toNat (v : Cmd) : (Arg.unsigned v.toNat).asCmd = some v := by
  simp [Arg.asCmd, v.isLt]

/-- A name that gives an edge stands in the table of forms or is one of the three other lines. -/
theorem mem_names_of_assembleWords {name : String} {args : List Arg} {e : EdgeInput}
    (assembled : assembleWords name args = some e) :
    name ∈ forms.map Prod.fst ++ [".cmd", "idle", "reset"] := by
  apply List.mem_append.mpr
  by_cases other : name ∈ [".cmd", "idle", "reset"]
  case pos => exact .inr other
  case neg =>
    left
    cases found : forms.find? (fun f => f.1 == name) with
    | none =>
      simp only [List.mem_cons, List.not_mem_nil, or_false, not_or] at other
      simp [assembleWords, assembleInstr, other, found] at assembled
    | some f =>
      have sameName : f.1 = name := by simpa using List.find?_some found
      exact sameName ▸ List.mem_map_of_mem (List.mem_of_find?_eq_some found)

/-- Settles O57: each second name has the form of the name it stands for, and the table lists the
names there are. -/
theorem secondNamesAndRawWords : Obligations.SecondNamesAndRawWords := by
  refine ⟨fun args => ⟨?_, ?_, ?_, ?_, ?_⟩, fun v => ?_, ⟨idleEdge, rfl, rfl, rfl⟩,
    ⟨resetEdge, rfl, rfl⟩, fun name args e assembled => ?_⟩
  case refine_6 => exact congrArg (Option.map commandEdge) (Arg.asCmd_unsigned_toNat v)
  case refine_7 =>
    simp only [← List.mem_append]
    exact mem_names_of_assembleWords assembled
  all_goals exact assembleWords_congr rfl rfl (by decide) (by decide) args

end Sys2Proof.Machine
end

section
/-! PROOFS. The single-bit operations (40_single_bit_ops.md): each is decoded from `OP`, `X` and `POS`,
answers under the one precondition of R104, and its Byte result can be fed back to another. -/

namespace Sys2Proof

/-- The bits that a command with the operands `X` and `POS` reads, in any word with its code. -/
theorem and_readMask_of_opField {cmd : Cmd} {op : Byte} (code : opField cmd = op) :
    cmd &&& packCmd 0x000000FF 0 0 0xFF 0xFF =
      packCmd (byteInA (xField cmd)) 0 0 (posField cmd) op :=
  and_packCmd_eq_packCmd_iff.mpr ⟨aField_and_low_eq_byteInA_iff.mpr rfl, BitVec.and_zero,
    BitVec.and_zero, Laws.Encoding.byte_and_ones _, code⟩

end Sys2Proof

namespace Sys2Proof.Machine

/-! ## One command -/

section
variable {i : Instr} {r : Result} {pos : Byte} {s : State}
  (answers : answer i = .provided (posInByte pos) r)
include answers

theorem exec_of_pos_le (inRange : pos.toNat ≤ 7) : exec i s = .next (s.respond r.toBus 0b00#2) := by
  rw [exec_eq_commit, answers, Answer.provided_of_true ((posInByte_iff pos).mpr inRange)]
  rfl

theorem exec_of_lt_pos (outOfRange : 7 < pos.toNat) :
    exec i s = .next (s.respond 0#64 0b10#2) := by
  have refused : posInByte pos = false := by
    rw [← Bool.not_eq_true, posInByte_iff]
    omega
  rw [exec_eq_commit, answers, Answer.provided_of_false refused]
  rfl

end

variable (x pos : Byte)

theorem answer_setBit : answer (.setBit x pos) =
    .provided (posInByte pos) (.byte (x ||| 0x01#8 <<< pos.toNat)) := rfl

theorem answer_clearBit : answer (.clearBit x pos) =
    .provided (posInByte pos) (.byte (x &&& ~~~(0x01#8 <<< pos.toNat))) := rfl

theorem answer_toggleBit : answer (.toggleBit x pos) =
    .provided (posInByte pos) (.byte (x ^^^ 0x01#8 <<< pos.toNat)) := rfl

theorem answer_getBitStatus : answer (.getBitStatus x pos) =
    .provided (posInByte pos) (.bit (x.getLsbD pos.toNat)) := rfl

/-- One bit on the result bus is 0 or 1 (10_state.md R27). -/
theorem Result.toBus_bit (b : Bool) : (Result.bit b).toBus = if b then 1#64 else 0#64 := by
  cases b <;> rfl

/-- Settles O1: the decoder reads the three fields, and R104 has two sides. -/
theorem setBitForcesBitToOne : Obligations.SetBitForcesBitToOne :=
  ⟨fun _ code => decodeWith_of_and_readMask rfl (and_readMask_of_opField code),
    fun x pos _ => ⟨exec_of_pos_le (answer_setBit x pos), exec_of_lt_pos (answer_setBit x pos)⟩⟩

/-- Settles O2, as O1 with the mask's complement. -/
theorem clearBitForcesBitToZero : Obligations.ClearBitForcesBitToZero :=
  ⟨fun _ code => decodeWith_of_and_readMask rfl (and_readMask_of_opField code),
    fun x pos _ => ⟨exec_of_pos_le (answer_clearBit x pos), exec_of_lt_pos (answer_clearBit x pos)⟩⟩

/-- Settles O3, as O1 with exclusive OR. -/
theorem toggleBitFlipsBit : Obligations.ToggleBitFlipsBit :=
  ⟨fun _ code => decodeWith_of_and_readMask rfl (and_readMask_of_opField code),
    fun x pos _ => ⟨exec_of_pos_le (answer_toggleBit x pos), exec_of_lt_pos (answer_toggleBit x pos)⟩⟩

/-- Settles O4: the bit on the bus is 0 or 1. -/
theorem getBitStatusReturnsBit : Obligations.GetBitStatusReturnsBit := by
  refine ⟨fun _ code => decodeWith_of_and_readMask rfl (and_readMask_of_opField code),
    fun x pos s => ⟨fun inRange => ?_, exec_of_lt_pos (answer_getBitStatus x pos)⟩⟩
  rw [← Result.toBus_bit]
  exact exec_of_pos_le (answer_getBitStatus x pos) inRange

/-! ## Two commands, the second one's operand the Byte result of the first -/

theorem exec_fed_back {first : Instr} {second : Byte → Instr} {p q v : Byte} {r : Result}
    (answers : answer first = .provided (posInByte p) (.byte v))
    (answers' : answer (second v) = .provided (posInByte q) r)
    (hp : p.toNat ≤ 7) (hq : q.toNat ≤ 7) (s : State) :
    ∃ t t' : State, exec first s = .next t ∧ exec (second t.rspByte) t = .next t' ∧
      t.err = 0b00#2 ∧ t'.err = 0b00#2 ∧ t'.res = r.toBus := by
  have fedBack : (s.respond (zext64 v) 0b00#2).rspByte = v := s.respond_rspByte v 0b00#2
  exact ⟨s.respond (zext64 v) 0b00#2, _, exec_of_pos_le answers hp,
    by rw [fedBack]; exact exec_of_pos_le answers' hq, rfl, rfl, rfl⟩

/-- Two commands at one position, read as a host reads the second response. -/
theorem rspResult_fed_back {first : Instr} {second : Byte → Instr} {p v w : Byte}
    (answers : answer first = .provided (posInByte p) (.byte v))
    (answers' : answer (second v) = .provided (posInByte p) (.byte w))
    (hp : p.toNat ≤ 7) (s : State) :
    ∃ t t' : State, exec first s = .next t ∧ exec (second t.rspByte) t = .next t' ∧
      t'.rspResult = some (w.setWidth 64) := by
  obtain ⟨t, t', runs, runs', -, ok, res⟩ := exec_fed_back answers answers' hp hp s
  exact ⟨t, t', runs, runs', by rw [State.rspResult_of_ok ok, res]; rfl⟩

theorem clear_then_set (m : Byte) : x &&& ~~~m ||| m = x ||| m := by
  ext i
  cases h : m[i] <;> simp [h]

theorem set_then_clear (m : Byte) : (x ||| m) &&& ~~~m = x &&& ~~~m := by
  ext i
  cases h : m[i] <;> simp [h]

theorem toggle_then_toggle (m : Byte) : x ^^^ m ^^^ m = x := by
  rw [BitVec.xor_assoc, BitVec.xor_self, BitVec.xor_zero]

/-- Settles O48: each pair of commands acts on the Byte as its two masks do. -/
theorem setClearToggleLaws : Obligations.SetClearToggleLaws := by
  intro x p s hp
  refine ⟨rspResult_fed_back (second := (.setBit · p)) (answer_clearBit x p) ?_ hp s,
    rspResult_fed_back (second := (.clearBit · p)) (answer_setBit x p) ?_ hp s,
    rspResult_fed_back (second := (.toggleBit · p)) (answer_toggleBit x p) ?_ hp s⟩
  · rw [answer_setBit, clear_then_set]
  · rw [answer_clearBit, set_then_clear]
  · rw [answer_toggleBit, toggle_then_toggle]

section
variable {p q : Byte} (hq : q.toNat ≤ 7)
include hq

/-- The mask of position `p` has no other bit set. -/
theorem getLsbD_mask : (0x01#8 <<< p.toNat).getLsbD q.toNat = decide (p = q) := by
  rw [BitVec.getLsbD_shiftLeft, BitVec.getLsbD_one, Bool.eq_iff_iff, decide_eq_true_iff,
    ← BitVec.toNat_inj]
  simp only [Bool.and_eq_true, Bool.not_eq_true', decide_eq_true_eq, decide_eq_false_iff_not]
  omega

theorem getLsbD_or_mask :
    (x ||| 0x01#8 <<< p.toNat).getLsbD q.toNat = if p = q then true else x.getLsbD q.toNat := by
  rw [BitVec.getLsbD_or, getLsbD_mask hq]
  by_cases h : p = q <;> simp [h]

theorem getLsbD_and_not_mask :
    (x &&& ~~~(0x01#8 <<< p.toNat)).getLsbD q.toNat =
      if p = q then false else x.getLsbD q.toNat := by
  have inByte : q.toNat < 8 := Nat.lt_succ_of_le hq
  rw [BitVec.getLsbD_and, BitVec.getLsbD_not, getLsbD_mask hq]
  by_cases h : p = q <;> simp [h, inByte]

theorem getLsbD_xor_mask :
    (x ^^^ 0x01#8 <<< p.toNat).getLsbD q.toNat =
      if p = q then !x.getLsbD q.toNat else x.getLsbD q.toNat := by
  rw [BitVec.getLsbD_xor, getLsbD_mask hq]
  by_cases h : p = q <;> simp [h]

end

/-- On the bus the complement of a bit is one minus the bit. -/
theorem Result.toBus_not (b : Bool) : (Result.bit !b).toBus = 1#64 - (Result.bit b).toBus := by
  cases b <;> rfl

/-- Settles O49: after each writer, `get_bit_status` reads the bit that the writer's mask leaves. -/
theorem writersChangeOnlyTheirBit : Obligations.WritersChangeOnlyTheirBit := by
  intro x p q s hp hq
  obtain ⟨a, ga, runA, runGa, okA, okGa, resGa⟩ := exec_fed_back (second := (.getBitStatus · q))
    (answer_setBit x p) (answer_getBitStatus _ q) hp hq s
  obtain ⟨b, gb, runB, runGb, okB, okGb, resGb⟩ := exec_fed_back (second := (.getBitStatus · q))
    (answer_clearBit x p) (answer_getBitStatus _ q) hp hq s
  obtain ⟨c, gc, runC, runGc, okC, okGc, resGc⟩ := exec_fed_back (second := (.getBitStatus · q))
    (answer_toggleBit x p) (answer_getBitStatus _ q) hp hq s
  refine ⟨_, a, b, c, ga, gb, gc, exec_of_pos_le (answer_getBitStatus x q) hq, runA, runGa, runB,
    runGb, runC, runGc, okA, okB, okC, rfl, okGa, okGb, okGc, ?_, ?_, ?_⟩
  · rw [resGa, getLsbD_or_mask x hq]
    split <;> rfl
  · rw [resGb, getLsbD_and_not_mask x hq]
    split <;> rfl
  · rw [resGc, getLsbD_xor_mask x hq, State.respond_res, ← Result.toBus_not]
    split <;> rfl

end Sys2Proof.Machine
end

section
/-! PROOFS. Predicates and counts on a Byte (41_predicates_and_counts.md): three commands that read `X`
alone and always answer a result, and the laws R123 to R125 between those results. -/

namespace Sys2Proof

/-- The bits that a command with the one operand `X` reads, in any word with its code. -/
theorem and_readMask_of_opField_x {cmd : Cmd} {op : Byte} (code : opField cmd = op) :
    cmd &&& packCmd 0x000000FF 0 0 0 0xFF = packCmd (byteInA (xField cmd)) 0 0 0 op :=
  and_packCmd_eq_packCmd_iff.mpr ⟨aField_and_low_eq_byteInA_iff.mpr rfl, BitVec.and_zero,
    BitVec.and_zero, BitVec.and_zero, code⟩

end Sys2Proof

namespace Sys2Proof.Machine

/-- A command without a precondition writes its result beside `ERR_OK`. -/
theorem exec_of_result {i : Instr} {r : Result} (answers : answer i = .result r) (s : State) :
    exec i s = .next (s.respond r.toBus 0b00#2) := by
  rw [exec_eq_commit, answers]
  rfl

/-- True on the result bus is 1 (10_state.md R27). -/
theorem Result.toBus_bit_eq_one_iff {b : Bool} : (Result.bit b).toBus = 1#64 ↔ b = true := by
  cases b <;> decide

variable (x : Byte)

/-! ## The lowest bit -/

theorem answer_isEven : answer (.isEven x) = .result (.bit !x.getLsbD 0) := rfl

/-- Settles O5: the bus shows the complement of bit 0. -/
theorem isEvenTestsLowestBit : Obligations.IsEvenTestsLowestBit := by
  refine ⟨fun _ code => decodeWith_of_and_readMask rfl (and_readMask_of_opField_x code),
    fun x s => ?_⟩
  rw [exec_of_result (answer_isEven x), Result.toBus_bit]
  cases x.getLsbD 0 <;> rfl

/-! ## The count -/

/-- The model's sum of the eight bits counts the positions whose bit is 1. -/
theorem popcount_eq_countP : popcount x = (List.range 8).countP (x.getLsbD ·) := by
  simp only [List.range_succ, List.countP_append, List.countP_singleton, List.range_zero,
    List.countP_nil, Nat.zero_add, popcount, bitNat, Bool.toNat, Bool.cond_eq_ite]

/-- R123, on the Byte: every position counts for `x` or for its complement. -/
theorem popcount_add_popcount_not : popcount x + popcount (~~~x) = 8 := by
  have complement : (List.range 8).countP ((~~~x).getLsbD ·) =
      (List.range 8).countP (fun i => !x.getLsbD i) :=
    List.countP_congr fun i inByte => by simp [List.mem_range.mp inByte]
  rw [popcount_eq_countP, popcount_eq_countP, complement]
  simpa using (List.length_eq_countP_add_countP (x.getLsbD ·) (l := List.range 8)).symm

theorem popcount_eq_zero_iff : popcount x = 0 ↔ x = 0x00#8 := by
  constructor
  · intro noneCounted
    rw [popcount_eq_countP, List.countP_eq_zero] at noneCounted
    apply BitVec.eq_of_getLsbD_eq
    intro i inByte
    simpa using noneCounted i (List.mem_range.mpr inByte)
  · rintro rfl
    rfl

/-- The small integer on the bus is the count. -/
theorem toBus_small_popcount :
    (Result.small (BitVec.ofNat 8 (popcount x))).toBus = BitVec.ofNat 64 (popcount x) := by
  have inByte : popcount x < 2 ^ 8 := (popcount_withoutLowestOne x).2.trans_lt (by decide)
  exact BitVec.setWidth_ofNat_of_le_of_lt (by decide) inByte

theorem toNat_toBus_small_popcount :
    (Result.small (BitVec.ofNat 8 (popcount x))).toBus.toNat = popcount x := by
  rw [toBus_small_popcount]
  exact Nat.mod_eq_of_lt ((popcount_withoutLowestOne x).2.trans_lt (by decide))

theorem answer_countSetBits :
    answer (.countSetBits x) = .result (.small (BitVec.ofNat 8 (popcount x))) := rfl

/-- Settles O6: the model's sum is that count, and it fits the bus. -/
theorem countSetBitsCountsOnes : Obligations.CountSetBitsCountsOnes := by
  refine ⟨fun _ code => decodeWith_of_and_readMask rfl (and_readMask_of_opField_x code),
    fun x s => ?_⟩
  rw [exec_of_result (answer_countSetBits x), toBus_small_popcount, popcount_eq_countP]
  rfl

/-! ## Exactly one bit set -/

/-- The contract of R122: `x != 0 && (x & (x - 1)) == 0`. -/
abbrev OneBitSet : Prop := x ≠ 0x00#8 ∧ x &&& (x - 0x01#8) = 0x00#8

theorem answer_isPowerOf2 : answer (.isPowerOf2 x) = .result (.bit (decide (OneBitSet x))) := by
  rw [Bool.decide_and]
  rfl

/-- The contract singles out the powers of two: on a nonzero Byte `x - 1` does not wrap. -/
theorem oneBitSet_iff_two_pow : OneBitSet x ↔ ∃ k, k ≤ 7 ∧ x.toNat = 2 ^ k := by
  have sameOnNat : OneBitSet x ↔ x.toNat ≠ 0 ∧ x.toNat &&& (x.toNat - 1) = 0 := by
    unfold OneBitSet
    rw [ne_eq, ← BitVec.toNat_inj, BitVec.toNat_ofNat]
    refine and_congr_right fun nonzero => ?_
    have noWrap : 0x01#8 ≤ x := Nat.pos_of_ne_zero nonzero
    rw [← BitVec.toNat_inj, BitVec.toNat_and, BitVec.toNat_sub_of_le noWrap]
    rfl
  rw [sameOnNat, Nat.ne_zero_and_sub_one_eq_zero_iff_isPowerOfTwo]
  constructor
  · rintro ⟨k, isPower⟩
    have inByte : 2 ^ k < 2 ^ 8 := isPower ▸ x.isLt
    exact ⟨k, Nat.le_of_lt_succ ((Nat.pow_lt_pow_iff_right (by decide)).mp inByte), isPower⟩
  · rintro ⟨k, -, isPower⟩
    exact ⟨k, isPower⟩

/-- R124, on the Byte: the contract takes away the one bit there is. -/
theorem oneBitSet_iff_popcount_eq_one : OneBitSet x ↔ popcount x = 1 := by
  have oneFewer : popcount (x &&& (x - 0x01#8)) = popcount x - 1 := (popcount_withoutLowestOne x).1
  rw [OneBitSet, ne_eq, ← popcount_eq_zero_iff, ← popcount_eq_zero_iff, oneFewer]
  omega

/-- R125, on the Byte: 1 is the only odd power of two. -/
theorem getLsbD_zero_of_oneBitSet {x : Byte} (oneBit : OneBitSet x) (notOne : x ≠ 0x01#8) :
    x.getLsbD 0 = false := by
  obtain ⟨k, -, isPower⟩ := (oneBitSet_iff_two_pow x).mp oneBit
  have notLowest : k ≠ 0 := by
    rintro rfl
    exact notOne (BitVec.eq_of_toNat_eq isPower)
  rw [BitVec.getLsbD, isPower]
  exact Nat.testBit_two_pow_of_ne notLowest

/-- Settles O7: the bus shows the contract, which the eight powers of two satisfy. -/
theorem isPowerOf2TestsForOneBit : Obligations.IsPowerOf2TestsForOneBit := by
  refine ⟨fun _ code => decodeWith_of_and_readMask rfl (and_readMask_of_opField_x code),
    fun x s => ⟨?_, oneBitSet_iff_two_pow x⟩⟩
  rw [exec_of_result (answer_isPowerOf2 x), Result.toBus_bit]
  simp only [decide_eq_true_eq]
  rfl

/-! ## The laws between the results -/

/-- Settles O50: each law of R123 to R125 holds of the Byte, and the bus shows it. -/
theorem countsAndPredicatesAgree : Obligations.CountsAndPredicatesAgree := by
  intro x s
  refine ⟨_, _, _, _, _, exec_of_result (answer_countSetBits x) s,
    exec_of_result (answer_countSetBits (~~~x)) s, exec_of_result (answer_isPowerOf2 x) s,
    exec_of_result (answer_isEven x) s, exec_of_pos_le (answer_getBitStatus x 0x00#8) (by decide),
    ?_, ?_, Result.toBus_not (x.getLsbD 0), ?_⟩
  all_goals simp only [State.respond_res, Result.toBus_bit_eq_one_iff, decide_eq_true_eq]
  · rw [toNat_toBus_small_popcount, toNat_toBus_small_popcount, popcount_add_popcount_not]
  · rw [oneBitSet_iff_popcount_eq_one, ← BitVec.toNat_inj, toNat_toBus_small_popcount]
    rfl
  · intro notOne oneBit
    rw [getLsbD_zero_of_oneBitSet oneBit notOne]
    rfl

end Sys2Proof.Machine
end

section
/-! PROOFS. Permutations and field insertion (42_permute_and_field.md): the two permutations through the
lanes and the halves they place, set_bits through every bit of the Byte it writes. -/

namespace Sys2Proof.Machine

/-- A host that reads a good response gets what the accepting edge wrote. -/
@[simp] theorem State.respond_rspResult (s : State) (v : ResBus) :
    (s.respond v 0b00#2).rspResult = some v := rfl

/-! ## The byte lanes of a Word -/

/-- The Word of R140. -/
def reverseLanes (w : Word) : Word := lane w 0 ++ lane w 1 ++ lane w 2 ++ lane w 3

theorem answer_littleToBigEndian (w : Word) :
    answer (.littleToBigEndian w) = .result (.word (reverseLanes w)) := rfl

theorem lane_zero_of_byte (b : Byte) : lane b 0 = b := BitVec.extractLsb'_eq_self

/-- A Byte appended on the right is lane 0, and every other lane moves up by one. -/
theorem lane_zero_append {w : Nat} (v : BitVec w) (b : Byte) : lane (v ++ b) 0 = b :=
  BitVec.extractLsb'_append_eq_right

theorem lane_succ_append {w : Nat} (v : BitVec w) (b : Byte) (k : Nat) :
    lane (v ++ b) (k + 1) = lane v k := by
  rw [lane, Nat.mul_succ, BitVec.extractLsb'_append_eq_of_le (Nat.le_add_left 8 (8 * k)),
    Nat.add_sub_cancel, lane]

/-- The lanes of the reversed Word. -/
theorem lane_reverseLanes (w : Word) :
    lane (reverseLanes w) 0 = lane w 3 ∧ lane (reverseLanes w) 1 = lane w 2 ∧
    lane (reverseLanes w) 2 = lane w 1 ∧ lane (reverseLanes w) 3 = lane w 0 := by
  unfold reverseLanes
  refine ⟨lane_zero_append _ _, ?_, ?_, ?_⟩
  · rw [lane_succ_append, lane_zero_append]
  · rw [lane_succ_append, lane_succ_append, lane_zero_append]
  · rw [lane_succ_append, lane_succ_append, lane_succ_append, lane_zero_of_byte]

/-- A Word is its four lanes, the highest first. -/
theorem lanes_append (w : Word) : lane w 3 ++ lane w 2 ++ lane w 1 ++ lane w 0 = w := by
  unfold lane
  rw [BitVec.extractLsb'_append_extractLsb'_eq_extractLsb' (by decide),
    BitVec.extractLsb'_append_extractLsb'_eq_extractLsb' (by decide),
    BitVec.extractLsb'_append_extractLsb'_eq_extractLsb' (by decide)]
  exact BitVec.extractLsb'_eq_self

/-- R143, on the Word. -/
theorem reverseLanes_reverseLanes (w : Word) : reverseLanes (reverseLanes w) = w := by
  obtain ⟨lane0, lane1, lane2, lane3⟩ := lane_reverseLanes w
  rw [reverseLanes, lane0, lane1, lane2, lane3, lanes_append]

/-- Settles O8: the decoder reads all of `A`, and the four lanes stand reversed. -/
theorem littleToBigEndianReversesBytes : Obligations.LittleToBigEndianReversesBytes := by
  refine ⟨fun cmd code => decodeWith_of_and_readMask rfl (and_packCmd_eq_packCmd_iff.mpr
    ⟨Laws.Encoding.word_and_ones _, BitVec.and_zero, BitVec.and_zero, BitVec.and_zero, code⟩),
    fun w s => ⟨reverseLanes w, exec_of_result (answer_littleToBigEndian w) s, ?_⟩⟩
  obtain ⟨lane0, lane1, lane2, lane3⟩ := lane_reverseLanes w
  exact ⟨lane3, lane2, lane1, lane0⟩

/-! ## The two halves of a Byte -/

/-- The Byte of R142. -/
def exchangeNibbles (x : Byte) : Byte := x.extractLsb' 0 4 ++ x.extractLsb' 4 4

theorem answer_swapNibbles (x : Byte) :
    answer (.swapNibbles x) = .result (.byte (exchangeNibbles x)) := rfl

theorem exchangeNibbles_low (x : Byte) :
    (exchangeNibbles x).extractLsb' 0 4 = x.extractLsb' 4 4 := BitVec.extractLsb'_append_eq_right

theorem exchangeNibbles_high (x : Byte) :
    (exchangeNibbles x).extractLsb' 4 4 = x.extractLsb' 0 4 := BitVec.extractLsb'_append_eq_left

/-- The source's formula places the same halves: each shift clears the half it leaves. -/
theorem exchangeNibbles_eq_shifts (x : Byte) : exchangeNibbles x = x <<< 4 ||| x >>> 4 := by
  apply BitVec.eq_of_getLsbD_eq
  intro i inByte
  simp only [exchangeNibbles, BitVec.getLsbD_append, BitVec.getLsbD_extractLsb', BitVec.getLsbD_or,
    BitVec.getLsbD_shiftLeft, BitVec.getLsbD_ushiftRight]
  by_cases low : i < 4
  · simp [low]
  · have highZero : x.getLsbD (4 + i) = false := x.getLsbD_of_ge _ (by omega)
    simp [low, highZero, inByte]
    omega

/-- R144, on the Byte. -/
theorem exchangeNibbles_exchangeNibbles (x : Byte) : exchangeNibbles (exchangeNibbles x) = x := by
  rw [exchangeNibbles, exchangeNibbles_low, exchangeNibbles_high,
    BitVec.extractLsb'_append_extractLsb'_eq_extractLsb' (Nat.zero_add 4).symm]
  exact BitVec.extractLsb'_eq_self

/-- Settles O10: the halves stand exchanged, which is the formula. -/
theorem swapNibblesExchangesHalves : Obligations.SwapNibblesExchangesHalves := by
  refine ⟨fun _ code => decodeWith_of_and_readMask rfl (and_readMask_of_opField_x code),
    fun x s => ?_⟩
  rw [← exchangeNibbles_eq_shifts]
  exact ⟨exec_of_result (answer_swapNibbles x) s, exchangeNibbles_low x, exchangeNibbles_high x⟩

/-- Settles O51: a response holds the whole operand, so the second command undoes the first. -/
theorem byteSwapAndNibbleSwapAreInvolutions :
    Obligations.ByteSwapAndNibbleSwapAreInvolutions := by
  refine ⟨fun w s => ⟨_, _, exec_of_result (answer_littleToBigEndian w) s,
      exec_of_result (answer_littleToBigEndian _) _, ?_⟩,
    fun x s => ⟨_, _, exec_of_result (answer_swapNibbles x) s,
      exec_of_result (answer_swapNibbles _) _, ?_⟩⟩
  · have fedBack : (zext64 (reverseLanes w)).setWidth 32 = reverseLanes w := by simp [zext64]
    rw [State.respond_rspResult, State.respond_res, Result.toBus, Result.toBus, fedBack,
      reverseLanes_reverseLanes]
    rfl
  · rw [State.respond_rspResult, Result.toBus, Result.toBus, State.respond_rspByte,
      exchangeNibbles_exchangeNibbles]
    rfl

/-! ## The Byte with a field inserted -/

section
variable {p n : Nat} (hp : p ≤ 7) (hn : n ≤ p + 1) {dest src : Byte}
include hp hn

/-- R141, bit by bit. -/
theorem getLsbD_insertField {i : Nat} (hi : i < 8) :
    (insertField dest p n src).getLsbD i =
      if p + 1 - n ≤ i ∧ i ≤ p then src.getLsbD (i - (p + 1 - n)) else dest.getLsbD i := by
  simp only [insertField, BitVec.getLsbD_or, BitVec.getLsbD_and, BitVec.getLsbD_not,
    BitVec.getLsbD_shiftLeft, getLsbD_windowMask p (by omega) n (by omega) hn i hi]
  split
  case isTrue inWindow => simp [hi, inWindow]
  case isFalse notInWindow =>
    simp only [hi, notInWindow, decide_true, decide_false, Bool.not_false, Bool.and_true,
      Bool.and_false, Bool.or_false]

/-- A Byte is the one with the field inserted when its window holds the low bits of `src` and its
other bits are those of `dest`. -/
theorem insertField_eq_of_bits {r : Byte}
    (inside : ∀ j < n, src.getLsbD j = r.getLsbD (p + 1 - n + j))
    (outside : ∀ i < 8, ¬ (p + 1 - n ≤ i ∧ i ≤ p) → dest.getLsbD i = r.getLsbD i) :
    insertField dest p n src = r := by
  apply BitVec.eq_of_getLsbD_eq
  intro i hi
  rw [getLsbD_insertField hp hn hi]
  split
  case isTrue inWindow =>
    have atBit : p + 1 - n + (i - (p + 1 - n)) = i := Nat.add_sub_cancel' inWindow.1
    rw [inside _ (by omega), atBit]
  case isFalse notInWindow => exact outside i hi notInWindow

/-- The window's bits, counted from its lowest. -/
theorem getLsbD_insertField_inside {j : Nat} (hj : j < n) :
    (insertField dest p n src).getLsbD (p + 1 - n + j) = src.getLsbD j := by
  rw [getLsbD_insertField hp hn (by omega), if_pos (by omega), Nat.add_sub_cancel_left]

theorem getLsbD_insertField_outside {i : Nat} (hi : i < 8) (h : ¬ (p + 1 - n ≤ i ∧ i ≤ p)) :
    (insertField dest p n src).getLsbD i = dest.getLsbD i := by
  rw [getLsbD_insertField hp hn hi, if_neg h]

/-- R145 (a), on the Byte. -/
theorem insertField_congr {src' : Byte} (sameLow : ∀ j < n, src.getLsbD j = src'.getLsbD j) :
    insertField dest p n src = insertField dest p n src' :=
  insertField_eq_of_bits hp hn
    (fun j hj => (sameLow j hj).trans (getLsbD_insertField_inside hp hn hj).symm)
    fun _ hi h => (getLsbD_insertField_outside hp hn hi h).symm

/-- R145 (b), on the Byte: the old field is `dest` shifted down to it. -/
theorem insertField_old_field :
    insertField (insertField dest p n src) p n (dest >>> (p + 1 - n)) = dest :=
  insertField_eq_of_bits hp hn (fun j _ => BitVec.getLsbD_ushiftRight dest (p + 1 - n) j)
    fun _ hi h => getLsbD_insertField_outside hp hn hi h

end

/-- A window of one bit is the mask that set_bit and clear_bit write through. -/
theorem windowMask_one (p : Nat) : windowMask p 1 = 0x01#8 <<< p := rfl

/-- R145 (c), on the Byte. -/
theorem insertField_one_one (dest : Byte) (p : Nat) :
    insertField dest p 1 0x01#8 = dest ||| 0x01#8 <<< p := by
  simp only [insertField, windowMask_one, Nat.add_sub_cancel, BitVec.and_self, clear_then_set]

theorem insertField_one_zero (dest : Byte) (p : Nat) :
    insertField dest p 1 0x00#8 = dest &&& ~~~(0x01#8 <<< p) := by
  simp only [insertField, windowMask_one, BitVec.zero_shiftLeft, BitVec.zero_and, BitVec.or_zero]

/-- R145 (d), on the Byte. -/
theorem insertField_whole (dest src : Byte) : insertField dest 7 8 src = src :=
  insertField_eq_of_bits (by decide) (by decide) (fun _ _ => by rw [Nat.zero_add])
    fun _ hi h => absurd ⟨Nat.zero_le _, Nat.le_of_lt_succ hi⟩ h

theorem insertField_empty {p : Nat} (hp : p ≤ 7) (dest src : Byte) :
    insertField dest p 0 src = dest :=
  insertField_eq_of_bits hp (Nat.zero_le _) nofun fun _ _ _ => rfl

/-- R145 (e), on the Byte. -/
theorem insertField_low_nibble (x : Byte) :
    insertField x 7 4 x = x.extractLsb' 0 4 ++ x.extractLsb' 0 4 := by
  apply insertField_eq_of_bits (by decide) (by decide)
  · intro j hj
    refine Eq.trans ?_ BitVec.getLsbD_append.symm
    simp [hj]
  · intro i hi h
    have low : i < 4 := by omega
    refine Eq.trans ?_ BitVec.getLsbD_append.symm
    simp [low]

/-! ## set_bits -/

theorem answer_setBits (dest p n src : Byte) : answer (.setBits dest p n src) =
    .provided (windowInByte p n) (.byte (insertField dest p.toNat n.toNat src)) := rfl

section
variable {p n dest src : Byte} {s : State}

/-- Inside R141's precondition the command answers the Byte with the field inserted. -/
theorem exec_setBits {r : Byte} (hp : p.toNat ≤ 7) (hn : n.toNat ≤ p.toNat + 1)
    (inserted : insertField dest p.toNat n.toNat src = r) :
    exec (.setBits dest p n src) s = .next (s.respond (zext64 r) 0b00#2) := by
  rw [exec_eq_commit, answer_setBits,
    Answer.provided_of_true ((windowInByte_iff p n).mpr ⟨hp, hn⟩), inserted]
  rfl

theorem exec_setBits_outOfRange (outOfRange : 7 < p.toNat ∨ p.toNat + 1 < n.toNat) :
    exec (.setBits dest p n src) s = .next (s.respond 0#64 0b10#2) := by
  have refused : windowInByte p n = false := by
    rw [← Bool.not_eq_true, windowInByte_iff]
    omega
  rw [exec_eq_commit, answer_setBits, Answer.provided_of_false refused]
  rfl

end

/-- Settles O9: the decoder reads four fields, and R141's precondition has two sides. -/
theorem setBitsReplacesWindow : Obligations.SetBitsReplacesWindow := by
  refine ⟨fun _ code => decodeWith_of_and_readMask rfl (and_packCmd_eq_packCmd_iff.mpr
    ⟨aField_and_low_eq_byteInA_iff.mpr rfl, Laws.Encoding.byte_and_ones _,
      Laws.Encoding.byte_and_ones _, Laws.Encoding.byte_and_ones _, code⟩),
    fun dest p n src s => ⟨fun ⟨hp, hn⟩ => ?_, exec_setBits_outOfRange⟩⟩
  exact ⟨_, exec_setBits hp hn rfl, fun _ hi => getLsbD_insertField hp hn hi⟩

/-- Settles O52: each law holds of the Byte with the field inserted, and the bus shows that Byte. -/
theorem fieldInsertionLaws : Obligations.FieldInsertionLaws := by
  intro dest p n src s hp hn
  have noneFits : (0#8).toNat ≤ p.toNat + 1 := Nat.zero_le _
  have oneFits : (1#8).toNat ≤ p.toNat + 1 := Nat.le_add_left 1 p.toNat
  refine ⟨fun src' sameLow => ?_,
    ⟨_, _, exec_setBits hp hn rfl, exec_setBits (r := dest) hp hn ?_, rfl⟩,
    ⟨?_, ?_⟩,
    ⟨_, _, exec_setBits (by decide) (by decide) (insertField_whole dest src), rfl,
      exec_setBits hp noneFits (insertField_empty hp dest src), rfl⟩,
    ⟨_, _, exec_setBits (by decide) (by decide) (insertField_low_nibble dest), rfl,
      exec_of_result (answer_swapNibbles dest) s, ?_⟩⟩
  · rw [exec_setBits hp hn rfl, exec_setBits hp hn rfl, insertField_congr hp hn sameLow]
  · rw [State.respond_rspByte, insertField_old_field hp hn]
  · rw [exec_of_pos_le (answer_setBit dest p) hp]
    exact exec_setBits hp oneFits (insertField_one_one dest p.toNat)
  · rw [exec_of_pos_le (answer_clearBit dest p) hp]
    exact exec_setBits hp oneFits (insertField_one_zero dest p.toNat)
  · rw [Result.toBus, State.respond_rspByte, State.respond_rspByte, exchangeNibbles_high]
    exact BitVec.extractLsb'_append_eq_left.symm

end Sys2Proof.Machine
end

section
/-! PROOFS. The auxiliary bit operations (43_aux_bit_ops.md): exclusive OR, the constant and one bit of a
Word, the lowest set bit by the borrow of `x - 1`, the highest by the model's scan, and the laws of R167. -/

namespace Sys2Proof

/-- The bits that a command with the operands `X` and `B` reads, in any word with its code. -/
theorem and_readMask_of_opField_xb {cmd : Cmd} {op : Byte} (code : opField cmd = op) :
    cmd &&& packCmd 0x000000FF 0xFF 0 0 0xFF =
      packCmd (byteInA (xField cmd)) (bField cmd) 0 0 op :=
  and_packCmd_eq_packCmd_iff.mpr ⟨aField_and_low_eq_byteInA_iff.mpr rfl,
    Laws.Encoding.byte_and_ones _, BitVec.and_zero, BitVec.and_zero, code⟩

end Sys2Proof

namespace Sys2Proof.Machine

/-! ## Exclusive OR -/

/-- The formula of R160, bit by bit. -/
theorem or_and_not_or_not {w : Nat} (x y : BitVec w) : (x ||| y) &&& (~~~x ||| ~~~y) = x ^^^ y := by
  ext i
  cases h : x[i] <;> simp [h]

theorem answer_xorWithoutOperator (x y : Byte) :
    answer (.xorWithoutOperator x y) = .result (.byte (x ^^^ y)) :=
  congrArg (Answer.result ∘ Result.byte) (or_and_not_or_not x y)

/-- Settles O14: the formula is the exclusive OR, which the bus shows. -/
theorem xorWithoutOperatorIsXor : Obligations.XorWithoutOperatorIsXor :=
  ⟨fun _ code => decodeWith_of_and_readMask rfl (and_readMask_of_opField_xb code),
    fun x y s => ⟨exec_of_result (answer_xorWithoutOperator x y) s, or_and_not_or_not x y⟩⟩

/-! ## The constant, and one bit of a Word -/

theorem answer_sizeOfUsingBitwise : answer .sizeOfUsingBitwise = .result (.small 0x01#8) := rfl

/-- Settles O15: the decoder reads `OP` alone, and the answer is a constant. -/
theorem sizeOfUsingBitwiseIsOne : Obligations.SizeOfUsingBitwiseIsOne :=
  ⟨fun _ code => decodeWith_of_and_readMask rfl (and_packCmd_eq_packCmd_iff.mpr
      ⟨BitVec.and_zero, BitVec.and_zero, BitVec.and_zero, BitVec.and_zero, code⟩),
    exec_of_result answer_sizeOfUsingBitwise⟩

theorem answer_isNthBitOn (w : Word) (pos : Byte) : answer (.isNthBitOn w pos) =
    .provided (posInWord pos) (.bit (w.getLsbD pos.toNat)) := rfl

section
variable (w : Word) {pos : Byte} (s : State)

theorem exec_isNthBitOn (inRange : pos.toNat ≤ 31) : exec (.isNthBitOn w pos) s =
    .next (s.respond (Result.bit (w.getLsbD pos.toNat)).toBus 0b00#2) := by
  apply exec_of_result
  rw [answer_isNthBitOn, Answer.provided_of_true ((posInWord_iff pos).mpr inRange)]

theorem exec_isNthBitOn_outOfRange (outOfRange : 31 < pos.toNat) :
    exec (.isNthBitOn w pos) s = .next (s.respond 0#64 0b10#2) := by
  have refused : posInWord pos = false := by
    rw [← Bool.not_eq_true, posInWord_iff]
    omega
  rw [exec_eq_commit, answer_isNthBitOn, Answer.provided_of_false refused]
  rfl

end

/-- Settles O17: the decoder reads all of `A` and `POS`, and the precondition of R162 has two sides. -/
theorem isNthBitOnReturnsBitOfWord : Obligations.IsNthBitOnReturnsBitOfWord := by
  refine ⟨fun _ code => decodeWith_of_and_readMask rfl (and_packCmd_eq_packCmd_iff.mpr
    ⟨Laws.Encoding.word_and_ones _, BitVec.and_zero, BitVec.and_zero,
      Laws.Encoding.byte_and_ones _, code⟩),
    fun w pos s => ⟨fun inRange => ?_, exec_isNthBitOn_outOfRange w s⟩⟩
  rw [← Result.toBus_bit]
  exact exec_isNthBitOn w s inRange

/-! ## The lowest set bit -/

/-- Adding all ones, which is subtracting one, carries into every position above a set bit. -/
theorem carry_allOnes {w : Nat} (x : BitVec w) {i : Nat} (hi : i ≤ w) :
    BitVec.carry i x (BitVec.allOnes w) false = decide (∃ j < i, x.getLsbD j = true) := by
  induction i with
  | zero => simp
  | succ i ih =>
    have inWidth : i < w := hi
    rw [BitVec.carry_succ, ih inWidth.le, BitVec.getLsbD_allOnes, decide_eq_true inWidth,
      Bool.atLeastTwo_true_mid, Bool.eq_iff_iff, Bool.or_eq_true, decide_eq_true_iff,
      decide_eq_true_iff, Nat.exists_lt_succ_right, or_comm]

/-- `x & (x - 1)` bit by bit: where nothing below is set the borrow flips the bit of `x`, and the AND
clears it; above the lowest set bit `x - 1` agrees with `x`. -/
theorem getLsbD_and_sub_one {w : Nat} (x : BitVec w) {i : Nat} (hi : i < w) :
    (x &&& (x - 1#w)).getLsbD i = (x.getLsbD i && decide (∃ j < i, x.getLsbD j = true)) := by
  rw [BitVec.getLsbD_and, BitVec.sub_eq_add_neg, BitVec.neg_one_eq_allOnes, BitVec.getLsbD_add hi,
    carry_allOnes x hi.le, BitVec.getLsbD_allOnes, decide_eq_true hi]
  cases x.getLsbD i <;> simp

theorem answer_clearLsb (x : Byte) :
    answer (.clearLsb x) = .result (.byte (withoutLowestOne x)) := rfl

/-- Settles O19: the bus shows the formula, and the borrow says which bits it keeps. -/
theorem clearLsbClearsLowestSetBit : Obligations.ClearLsbClearsLowestSetBit :=
  ⟨fun _ code => decodeWith_of_and_readMask rfl (and_readMask_of_opField_x code),
    fun x s => ⟨exec_of_result (answer_clearLsb x) s, fun _ => getLsbD_and_sub_one x⟩⟩

/-! ## The highest set bit -/

theorem answer_findMsb_zero : answer (.findMsb 0x00#8) = .result (.signedByte 0xFF#8) := rfl

/-- A nonzero Byte has a highest set bit, and its position is the answer. -/
theorem answer_findMsb {x : Byte} (nonzero : x ≠ 0x00#8) :
    ∃ k : Byte, answer (.findMsb x) = .result (.signedByte k) ∧ k.toNat ≤ 7 ∧
      x.getLsbD k.toNat = true ∧ ∀ j, k.toNat < j → j ≤ 7 → x.getLsbD j = false := by
  obtain ⟨k, inByte, found, isSet, highest⟩ := highestOneBelow_eight x nonzero
  have position : (BitVec.ofNat 8 k).toNat = k := Nat.mod_eq_of_lt (inByte.trans (by decide))
  refine ⟨BitVec.ofNat 8 k, by rw [answer, findMsbAnswer, found], ?_⟩
  rw [position]
  exact ⟨Nat.le_of_lt_succ inByte, isSet, fun j above inByte' =>
    highest j (Nat.lt_succ_of_le inByte') above⟩

/-- Settles O20: the sentinel for zero, the position that the scan finds for every other Byte. -/
theorem findMsbFindsHighestSetBit : Obligations.FindMsbFindsHighestSetBit := by
  refine ⟨fun _ code => decodeWith_of_and_readMask rfl (and_readMask_of_opField_x code),
    exec_of_result answer_findMsb_zero, fun x s nonzero => ?_⟩
  obtain ⟨k, answers, inByte, isSet, highest⟩ := answer_findMsb nonzero
  refine ⟨k.toNat, inByte, isSet, highest, ?_⟩
  rw [BitVec.ofNat_toNat]
  exact exec_of_result answers s

/-! ## The laws between the results -/

/-- `get_bit_status` read as a host reads its response. -/
theorem rspResult_getBitStatus (x : Byte) {pos : Byte} (inRange : pos.toNat ≤ 7) (s : State) :
    ∃ t : State, exec (.getBitStatus x pos) s = .next t ∧
      t.rspResult = some (if x.getLsbD pos.toNat then 1#64 else 0#64) :=
  ⟨_, exec_of_pos_le (answer_getBitStatus x pos) inRange,
    by rw [State.respond_rspResult, Result.toBus_bit]⟩

/-- R167: `find_msb` fed back to `get_bit_status` names a set bit with none above it. -/
theorem findMsb_then_getBitStatus {x : Byte} (nonzero : x ≠ 0x00#8) (s : State) :
    ∃ t t' : State, exec (.findMsb x) s = .next t ∧
      exec (.getBitStatus x t.rspByte) t = .next t' ∧ t'.rspResult = some 1#64 ∧
      ∀ j : Byte, t.rspByte.toNat < j.toNat → j.toNat ≤ 7 →
        ∃ t'' : State, exec (.getBitStatus x j) t' = .next t'' ∧ t''.rspResult = some 0#64 := by
  obtain ⟨k, answers, inByte, isSet, highest⟩ := answer_findMsb nonzero
  have fedBack : (s.respond (zext64 k) 0b00#2).rspByte = k := s.respond_rspByte k 0b00#2
  obtain ⟨t', runs, reads⟩ := rspResult_getBitStatus x inByte (s.respond (zext64 k) 0b00#2)
  refine ⟨s.respond (zext64 k) 0b00#2, t', exec_of_result answers s, ?_⟩
  rw [fedBack]
  refine ⟨runs, by simpa [isSet] using reads, fun j above inByte' => ?_⟩
  simpa [highest j.toNat above inByte'] using rspResult_getBitStatus x inByte' t'

/-- R167: clearing the lowest set bit takes one from the count, if there is one to take. -/
theorem clearLsb_then_countSetBits (x : Byte) (s : State) :
    ∃ t c d : State, exec (.clearLsb x) s = .next t ∧ exec (.countSetBits t.rspByte) t = .next c ∧
      exec (.countSetBits x) s = .next d ∧ c.res.toNat = max (d.res.toNat - 1) 0 := by
  refine ⟨_, _, _, exec_of_result (answer_clearLsb x) s, exec_of_result (answer_countSetBits _) _,
    exec_of_result (answer_countSetBits x) s, ?_⟩
  rw [State.respond_res, State.respond_res, toNat_toBus_small_popcount, toNat_toBus_small_popcount,
    Result.toBus, State.respond_rspByte, (popcount_withoutLowestOne x).1, Nat.max_zero]

/-- Settles O55: the top bit, the count, and exclusive OR as a commutative involution. -/
theorem auxiliaryBitRelations : Obligations.AuxiliaryBitRelations := by
  intro x y s
  refine ⟨fun nonzero => findMsb_then_getBitStatus nonzero s, clearLsb_then_countSetBits x s, ?_,
    _, _, exec_of_result (answer_xorWithoutOperator x y) s,
    exec_of_result (answer_xorWithoutOperator _ y) _, ?_⟩
  · rw [exec_of_result (answer_xorWithoutOperator x y),
      exec_of_result (answer_xorWithoutOperator y x), BitVec.xor_comm]
  · rw [State.respond_rspResult, Result.toBus, Result.toBus, State.respond_rspByte,
      toggle_then_toggle]
    rfl

end Sys2Proof.Machine
end

section
/-! PROOFS. Formatting, arithmetic and exchange (44_aux_arith_and_move.md): the lanes of a string and of a
pair on the bus, the signed readings through the library's balanced remainder, the product through its
shift-and-add recursion, and the relations R186 and R188. -/

namespace Sys2Proof.Machine

/-! ## The eight characters -/

/-- ASCII `'1'` and `'0'` (R180). -/
theorem bitChar_eq (b : Bool) : bitChar b = if b then 0x31#8 else 0x30#8 := by
  cases b <;> decide

/-- The character of bit `7 - k` fills lane `k`: the lanes below it are dropped one at a time. -/
theorem answer_formatBinary (x : Byte) :
    ∃ r : Result, answer (.formatBinary x) = .result r ∧
      ∀ k < 8, lane r.toBus k = bitChar (x.getLsbD (7 - k)) := by
  refine ⟨_, rfl, fun k hk => ?_⟩
  rw [Result.toBus]
  interval_cases k
  all_goals simp only [lane_succ_append, lane_zero_append, lane_zero_of_byte, Nat.sub_zero,
    Nat.reduceSub]

/-- Settles O11: the decoder reads `X` alone, and each lane holds one bit's character. -/
theorem formatBinaryWritesEightCharacters : Obligations.FormatBinaryWritesEightCharacters := by
  refine ⟨fun _ code => decodeWith_of_and_readMask rfl (and_readMask_of_opField_x code),
    fun x s => ?_⟩
  obtain ⟨r, answers, lanes⟩ := answer_formatBinary x
  exact ⟨r.toBus, exec_of_result answers s, fun k hk => (lanes k hk).trans (bitChar_eq _)⟩

/-! ## Addition and subtraction -/

/-- The model's signed reading (00_scope.md R11) is the library's. -/
theorem s8_eq_toInt (v : Byte) : s8 v = v.toInt := by
  rw [s8, BitVec.toInt_eq_msb_cond, BitVec.msb_eq_getLsbD_last]
  cases v.getLsbD 7 <;> simp

/-- `wrap8` (R181) is the balanced remainder modulo 256. -/
theorem wrap8_eq_bmod (v : Int) : wrap8 v = v.bmod 256 := by
  rw [wrap8, Int.bmod_def]
  split <;> omega

theorem s8_add (x y : Byte) : s8 (x + y) = wrap8 (s8 x + s8 y) := by
  rw [wrap8_eq_bmod, s8_eq_toInt, s8_eq_toInt, s8_eq_toInt, BitVec.toInt_add]

theorem s8_sub (x y : Byte) : s8 (x - y) = wrap8 (s8 x - s8 y) := by
  rw [wrap8_eq_bmod, s8_eq_toInt, s8_eq_toInt, s8_eq_toInt, BitVec.toInt_sub]

theorem answer_add (x y : Byte) : answer (.add x y) = .result (.signedByte (x + y)) := rfl

theorem answer_subtract (x y : Byte) : answer (.subtract x y) = .result (.signedByte (x - y)) := rfl

/-- Settles O12: one Byte is the sum in both readings. -/
theorem addWrapsModulo256 : Obligations.AddWrapsModulo256 :=
  ⟨fun _ code => decodeWith_of_and_readMask rfl (and_readMask_of_opField_xb code),
    fun x y s => ⟨x + y, exec_of_result (answer_add x y) s, BitVec.toNat_add x y, s8_add x y⟩⟩

/-- Settles O13: one Byte is the difference in both readings. -/
theorem subtractWrapsModulo256 : Obligations.SubtractWrapsModulo256 := by
  refine ⟨fun _ code => decodeWith_of_and_readMask rfl (and_readMask_of_opField_xb code),
    fun x y s => ⟨x - y, exec_of_result (answer_subtract x y) s, ?_, s8_sub x y⟩⟩
  rw [BitVec.toNat_sub', ← Nat.add_sub_assoc y.isLt.le]

/-! ## Multiplication -/

/-- The sum of R183: `x` shifted by each of the positions below `n` that are set in `y`. -/
def shiftAndAdd {w : Nat} (x y : BitVec w) (n : Nat) : BitVec w :=
  (List.range n).foldl (fun acc i => if y.getLsbD i then acc + (x <<< i) else acc) 0#w

theorem shiftAndAdd_succ {w : Nat} (x y : BitVec w) (n : Nat) :
    shiftAndAdd x y (n + 1) = shiftAndAdd x y n + if y.getLsbD n then x <<< n else 0#w := by
  rw [shiftAndAdd, List.range_succ, List.foldl_append]
  cases h : y.getLsbD n <;> simp [h, shiftAndAdd]

/-- The sum is the library's recursion for the product. -/
theorem shiftAndAdd_eq_mulRec {w : Nat} (x y : BitVec w) (n : Nat) :
    shiftAndAdd x y (n + 1) = x.mulRec y n := by
  induction n with
  | zero => simp [shiftAndAdd, BitVec.mulRec_zero_eq]
  | succ n ih => rw [shiftAndAdd_succ, ih, BitVec.mulRec_succ_eq]; rfl

/-- Over all positions of a Byte the sum is the product. -/
theorem shiftAndAdd_eight (x y : Byte) : shiftAndAdd x y 8 = x * y := by
  rw [shiftAndAdd_eq_mulRec, BitVec.mulRec_eq_mul_signExtend_setWidth, BitVec.setWidth_eq,
    BitVec.setWidth_eq]

theorem answer_multiplyByN (x y : Byte) : answer (.multiplyByN x y) = .result (.byte (x * y)) := rfl

/-- Settles O16: one Byte is the low product and the shift-and-add sum. -/
theorem multiplyByNKeepsLowProduct : Obligations.MultiplyByNKeepsLowProduct :=
  ⟨fun _ code => decodeWith_of_and_readMask rfl (and_readMask_of_opField_xb code),
    fun x y s => ⟨x * y, exec_of_result (answer_multiplyByN x y) s, BitVec.toNat_mul x y,
      (shiftAndAdd_eight x y).symm⟩⟩

/-! ## The relations of R186 -/

theorem mul_ofNat_two_pow {w : Nat} (x : BitVec w) (i : Nat) : x * BitVec.ofNat w (2 ^ i) = x <<< i := by
  have onehot : BitVec.ofNat w (2 ^ i) = BitVec.twoPow w i :=
    BitVec.eq_of_toNat_eq (by rw [BitVec.toNat_ofNat, BitVec.toNat_twoPow])
  rw [onehot, BitVec.shiftLeft_eq_mul_twoPow]

/-- Two signed results, the second command's operand the first's response. -/
theorem rspResult_signedByte_fed_back {first : Instr} {second : Byte → Instr} {v w : Byte}
    (answers : answer first = .result (.signedByte v))
    (answers' : answer (second v) = .result (.signedByte w)) (s : State) :
    ∃ t t' : State, exec first s = .next t ∧ exec (second t.rspByte) t = .next t' ∧
      t'.rspResult = some (w.setWidth 64) := by
  have fedBack : (s.respond (zext64 v) 0b00#2).rspByte = v := s.respond_rspByte v 0b00#2
  exact ⟨s.respond (zext64 v) 0b00#2, _, exec_of_result answers s,
    by rw [fedBack]; exact exec_of_result answers' _, rfl⟩

/-- Settles O53: each relation of R186 is one of arithmetic modulo 256. -/
theorem arithmeticInverses : Obligations.ArithmeticInverses := by
  intro x y s
  refine ⟨rspResult_signedByte_fed_back (second := (.subtract · y)) (answer_add x y) ?_ s,
    rspResult_signedByte_fed_back (second := (.add · y)) (answer_subtract x y) ?_ s, ?_,
    fun i _ => ⟨_, exec_of_result (answer_multiplyByN x _) s, ?_⟩, ?_⟩
  · rw [answer_subtract, BitVec.add_sub_cancel]
  · rw [answer_add, BitVec.sub_add_cancel]
  · rw [exec_of_result (answer_add x y), exec_of_result (answer_add y x), BitVec.add_comm]
  · rw [State.respond_rspResult, mul_ofNat_two_pow]
    rfl
  · rw [exec_of_result (answer_add x x), exec_of_result (answer_multiplyByN x 2#8), BitVec.mul_two]
    rfl

/-! ## The exchanged pair -/

theorem answer_swap (x y : Byte) : answer (.swap x y) = .result (.pair y x) := rfl

section
variable (first second : Byte)

/-- A pair on the bus (10_state.md R27): 48 zeros, the new second value, the new first. -/
theorem Result.toBus_pair : (Result.pair first second).toBus = 0#48 ++ second ++ first := by
  rw [toBus, zext64, BitVec.setWidth_eq_append (by decide), BitVec.append_assoc]

theorem Result.extractLsb'_toBus_pair_first :
    (Result.pair first second).toBus.extractLsb' 0 8 = first := by
  rw [toBus_pair]
  exact lane_zero_append _ first

theorem Result.extractLsb'_toBus_pair_second :
    (Result.pair first second).toBus.extractLsb' 8 8 = second := by
  rw [toBus_pair]
  exact (lane_succ_append _ first 0).trans (lane_zero_append _ second)

theorem Result.extractLsb'_toBus_pair_upper :
    (Result.pair first second).toBus.extractLsb' 16 48 = 0#48 := by
  rw [toBus_pair, BitVec.extractLsb'_append_eq_of_le (by decide), BitVec.extractLsb'_append_eq_left]

end

/-- Settles O18: the decoder reads `X` and `B`, which stand exchanged in the two low lanes. -/
theorem swapReturnsBothExchanged : Obligations.SwapReturnsBothExchanged :=
  ⟨fun _ code => decodeWith_of_and_readMask rfl (and_readMask_of_opField_xb code),
    fun x y s => ⟨(Result.pair y x).toBus, exec_of_result (answer_swap x y) s,
      Result.extractLsb'_toBus_pair_first y x, Result.extractLsb'_toBus_pair_second y x,
      Result.extractLsb'_toBus_pair_upper y x⟩⟩

/-- Settles O54: equal values read the same in both lanes, and exchanging the lanes of the first
response puts the operands back. -/
theorem swapOfEqualAndSwapTwice : Obligations.SwapOfEqualAndSwapTwice := by
  intro x y s
  refine ⟨⟨_, exec_of_result (answer_swap x x) s, rfl, Result.extractLsb'_toBus_pair_first x x,
      Result.extractLsb'_toBus_pair_second x x⟩,
    _, _, exec_of_result (answer_swap x y) s, exec_of_result (answer_swap _ _) _, rfl, ?_, ?_⟩
  · rw [State.respond_res, Result.extractLsb'_toBus_pair_first, State.respond_res,
      Result.extractLsb'_toBus_pair_second]
  · rw [State.respond_res, Result.extractLsb'_toBus_pair_second, State.respond_res,
      Result.extractLsb'_toBus_pair_first]

end Sys2Proof.Machine
end

section
/-! PROOFS. The error responses (60_exceptions.md): PRECOND answers exactly the operands out of range
(R203), an error writes zeros (R201), and with ILLEGAL_OP on the reserved codes only, the fourteen
operations without a precondition are left with OK (R205). -/

namespace Sys2Proof

/-- Operands that R203 refuses: a position outside the value, or a window outside the Byte. -/
def Instr.OutOfRange : Instr → Prop
  | .setBit _ pos | .clearBit _ pos | .toggleBit _ pos | .getBitStatus _ pos => 8 ≤ pos.toNat
  | .setBits _ p n _ => 8 ≤ p.toNat ∨ p.toNat + 1 < n.toNat
  | .isNthBitOn _ pos => 32 ≤ pos.toNat
  | _ => False

/-- The same, read from the fields of a word of the full unit. -/
def FieldsOutOfRange (op pos n : Byte) : Prop :=
  ((op = 0x00#8 ∨ op = 0x01#8 ∨ op = 0x02#8 ∨ op = 0x03#8) ∧ 8 ≤ pos.toNat) ∨
  (op = 0x08#8 ∧ (8 ≤ pos.toNat ∨ pos.toNat + 1 < n.toNat)) ∨
  (op = 0x16#8 ∧ 32 ≤ pos.toNat)

/-- The decoder takes the operands that R203 checks from `POS` and `N`. -/
theorem exists_outOfRange_iff (cmd : Cmd) :
    (∃ i, decodeWith true cmd = .ok i ∧ i.OutOfRange) ↔
      FieldsOutOfRange (opField cmd) (posField cmd) (nField cmd) := by
  apply decodeWith_cases (P := fun op decoded => (∃ i, decoded = .ok i ∧ i.OutOfRange) ↔
    FieldsOutOfRange op (posField cmd) (nField cmd))
  case reserved =>
    intro isReserved
    refine iff_of_false (fun ⟨_, refused, _⟩ => nomatch refused) ?_
    unfold FieldsOutOfRange
    bv_omega
  all_goals simp [auxiliary, Instr.OutOfRange, FieldsOutOfRange]

/-- The codes of R205 are built, and no field of theirs has a range. -/
theorem codeBuilt_and_not_fieldsOutOfRange :
    ∀ op ∈ [0x04#8, 0x05#8, 0x06#8, 0x07#8, 0x09#8, 0x10#8, 0x11#8, 0x12#8, 0x13#8, 0x14#8, 0x15#8,
      0x17#8, 0x18#8, 0x19#8],
    CodeBuilt true op ∧ ∀ pos n, ¬ FieldsOutOfRange op pos n := by
  simp [CodeBuilt, FieldsOutOfRange]

end Sys2Proof

namespace Sys2Proof.Machine

theorem Answer.provided_eq_precond_iff {ok : Bool} {r : Result} :
    Answer.provided ok r = .error .precond ↔ ¬ ok = true := by
  cases ok <;> simp [Answer.provided]

theorem Answer.pair_eq_precond_iff {a : Answer} :
    a.pair = (0#64, 0b10#2) ↔ a = .error .precond := by
  rcases a with r | (_ | _) <;> simp [Answer.pair, errOk, ErrorCause.code]

/-- `2'b11` is the code of no answer (10_state.md R26). -/
theorem Answer.pair_err_ne_three (a : Answer) : a.pair.2 ≠ 0b11#2 := by
  rcases a with r | (_ | _) <;> simp [Answer.pair, errOk, ErrorCause.code]

theorem answer_findMsb_ne_error (x : Byte) (c : ErrorCause) : answer (.findMsb x) ≠ .error c := by
  by_cases zero : x = 0x00#8
  · rw [zero, answer_findMsb_zero]
    exact nofun
  · obtain ⟨k, found, -⟩ := answer_findMsb zero
    rw [found]
    exact nofun

/-- A command answers PRECOND exactly when its operands are out of range (R203). -/
theorem answer_eq_precond_iff (i : Instr) : answer i = .error .precond ↔ i.OutOfRange := by
  cases i with
  | setBit x pos | clearBit x pos | toggleBit x pos | getBitStatus x pos =>
    exact Answer.provided_eq_precond_iff.trans ((posInByte_iff pos).not.trans not_le)
  | setBits dest p n src =>
    refine Answer.provided_eq_precond_iff.trans ((windowInByte_iff p n).not.trans ?_)
    simp only [Instr.OutOfRange]
    omega
  | isNthBitOn w pos =>
    exact Answer.provided_eq_precond_iff.trans ((posInWord_iff pos).not.trans not_le)
  | findMsb x => exact iff_of_false (answer_findMsb_ne_error x .precond) id
  | _ => exact iff_of_false nofun id

/-- PRECOND is the answer to exactly the words with fields out of range. -/
theorem answerWord_eq_precond_iff {cmd : Cmd} :
    answerWord true cmd = .error .precond ↔
      FieldsOutOfRange (opField cmd) (posField cmd) (nField cmd) := by
  rw [← exists_outOfRange_iff]
  rcases decodeWith_ok_or_reserved true cmd with ⟨-, i, decoded⟩ | ⟨-, refused⟩
  · simp [answerWord, decoded, answer_eq_precond_iff]
  · simp [answerWord, refused]

/-- Settles O22: PRECOND's pair is that of no other answer. -/
theorem precondExactlyOutOfRange : Obligations.PrecondExactlyOutOfRange :=
  fun _ => Answer.pair_eq_precond_iff.trans answerWord_eq_precond_iff

/-- Settles O23: an accepting edge writes the answer's pair, in which an error has zeros. -/
theorem errorResponseIsZero : Obligations.ErrorResponseIsZero := by
  intro aux cmd s
  refine ⟨Answer.pair_err_ne_three _, fun isError => ⟨?_, State.rspResult_of_error isError⟩⟩
  have zeros : (answerWord aux cmd).pair.1 = 0#64 := Answer.res_eq_zero_of_error isError
  rw [accept_eq_commit, State.commit_eq_respond, zeros]
  rfl

/-- Settles O24: the fourteen codes are built and have no range to leave, so neither error answers. -/
theorem fourteenOperationsNeverFail : Obligations.FourteenOperationsNeverFail := by
  intro cmd fourteen
  obtain ⟨built, inRange⟩ := codeBuilt_and_not_fieldsOutOfRange (opField cmd) fourteen
  unfold F
  cases answered : answerWord true cmd with
  | result r => rfl
  | error c =>
    cases c with
    | illegalOp => exact absurd built (answerWord_eq_illegalOp_iff.mp answered)
    | precond => exact absurd (answerWord_eq_precond_iff.mp answered) (inRange _ _)

end Sys2Proof.Machine
end

section
/-! PROOFS. Reset and consecutive edges (70_reset_and_hazards.md): each edge overwrites all three registers,
so nothing of a reset's or a response's predecessor is left (R231, R232, R242). -/

namespace Sys2Proof.Machine

/-- The ports after a response show what it wrote (10_state.md R23). -/
theorem State.respond_ports (s : State) (p : ResBus × ErrCode) :
    ((s.respond p.1 p.2).rspValid, (s.respond p.1 p.2).rspRes, (s.respond p.1 p.2).rspErr) = (true, p) :=
  rfl

/-- A response leaves nothing of the registers before it, a reset among them. -/
theorem State.respond_resetRegs (s : State) (v : ResBus) (c : ErrCode) :
    s.resetRegs.respond v c = s.respond v c := rfl

/-- A reset erases the response of the edge before (R232). -/
theorem State.resetRegs_respond (s : State) (v : ResBus) (c : ErrCode) :
    (s.respond v c).resetRegs = s.resetRegs := rfl

/-- A reset held for another edge changes nothing more (R231). -/
theorem State.resetRegs_resetRegs (s : State) : s.resetRegs.resetRegs = s.resetRegs := rfl

/-- Settles O33: each accepting edge writes its own command's response, whatever the registers held. -/
theorem nextCommandOverwritesResponse : Obligations.NextCommandOverwritesResponse := fun _ _ _ _ =>
  ⟨_, _, edge_of_command rfl rfl, State.respond_ports _ _,
    edge_of_command rfl rfl, State.respond_ports _ _⟩

/-- Settles O30: the reset from any state, after a reset and after a command, then the command after a
reset and from any state. -/
theorem resetEdgeWinsOverCommand : Obligations.ResetEdgeWinsOverCommand := by
  intro aux cmdValid cmd d s r t
  have reset (u : State) : edge aux { rst := true, cmdValid, cmd } u = .next u.resetRegs :=
    edge_of_rst rfl
  have command (u : State) : edge aux { rst := false, cmdValid := true, cmd := d } u =
      .next (u.respond (F aux d).1 (F aux d).2) := edge_of_command rfl rfl
  refine ⟨reset s, ?_, ?_, ?_, command s⟩
  · exact (reset r).trans (congrArg _ s.resetRegs_resetRegs)
  · exact (reset t).trans (congrArg _ (s.resetRegs_respond _ _))
  · exact (command r).trans (congrArg _ (s.respond_resetRegs _ _))

end Sys2Proof.Machine
end

section
/-! PROOFS. What one step leaves (10_state.md R24): the three kinds of edge taken together, the step as the
edge of its next input, and from that the legal response (R25, R26; 60_exceptions.md R201). -/

namespace Sys2Proof.Machine

/-- Everything an edge can do, by its kind. -/
theorem edge_cases (aux : Bool) (e : EdgeInput) (s : State) :
    (e.rst = true ∧ edge aux e s = .next s.resetRegs) ∨
    (e.rst = false ∧ e.cmdValid = true ∧
      edge aux e s = .next (s.respond (F aux e.cmd).1 (F aux e.cmd).2)) ∨
    (e.rst = false ∧ e.cmdValid = false ∧ edge aux e s = .next s.idle) := by
  cases rst : e.rst with
  | true => exact .inl ⟨rfl, edge_of_rst rst⟩
  | false =>
    cases command : e.cmdValid with
    | true => exact .inr (.inl ⟨rfl, rfl, edge_of_command rst command⟩)
    | false => exact .inr (.inr ⟨rfl, rfl, edge_of_idle rst command⟩)

/-- An edge never stops, and it leaves the later inputs alone. -/
theorem exists_edge_eq_next (aux : Bool) (e : EdgeInput) (s : State) :
    ∃ t : State, edge aux e s = .next t ∧ t.inputs = s.inputs := by
  rcases edge_cases aux e s with ⟨-, runs⟩ | ⟨-, -, runs⟩ | ⟨-, -, runs⟩
  all_goals exact ⟨_, runs, rfl⟩

/-! ## The step -/

section
variable {s : State} {e : EdgeInput} {es : List EdgeInput}

theorem step_of_inputs_cons (pending : s.inputs = e :: es) :
    step s = edge true e { s with inputs := es } := by
  have used : s.dropInput = { s with inputs := es } := by rw [State.dropInput, pending, List.tail_cons]
  rw [← s.nextInput_cons e pending, ← used]
  rfl

theorem step_of_inputs_nil (ended : s.inputs = []) : step s = .next { s with rvalid := false } := by
  have unused : s.dropInput = s := by rw [State.dropInput, ended, List.tail_nil, ← ended]
  rw [step, clockEdge, s.nextInput_nil ended, unused]
  rfl

end

/-- Settles O26, from the two cases of the list of inputs. -/
theorem stepIsEdgeOfNextInput : Obligations.StepIsEdgeOfNextInput :=
  fun _ => ⟨fun _ _ => step_of_inputs_cons, step_of_inputs_nil⟩

/-- Settles O27: the edge accepts, and an accepted word that decodes is executed. -/
theorem stepRunsDecodedCommand : Obligations.StepRunsDecodedCommand := by
  intro cmd i es s pending decoded
  refine ⟨wellFormedWith_of_decodeWith decoded, ?_⟩
  have accepts : step s = accept true cmd { s with inputs := es } := step_of_inputs_cons pending
  have decoded : decodeWith true cmd = .ok i := decoded
  rw [accepts, accept, decoded]

/-- Settles O28: the step is an edge at the state with one input used up. -/
theorem stepNeverStops : Obligations.StepNeverStops :=
  fun s => exists_edge_eq_next Config.auxPresent s.nextInput s.dropInput

/-- Settles O32: both states are left with the response of `F`, which reads neither. -/
theorem responseIndependentOfState : Obligations.ResponseIndependentOfState := fun _ _ _ _ =>
  ⟨_, _, edge_of_command rfl rfl, edge_of_command rfl rfl, rfl, rfl, rfl⟩

/-! ## The legal response -/

theorem State.legalResponse_resetRegs (s : State) : s.resetRegs.LegalResponse :=
  ⟨(by decide : errOk ≠ 0b11#2), fun isError => absurd rfl isError⟩

theorem State.legalResponse_respond_F (aux : Bool) (cmd : Cmd) (s : State) :
    (s.respond (F aux cmd).1 (F aux cmd).2).LegalResponse :=
  ⟨Answer.pair_err_ne_three _, Answer.res_eq_zero_of_error⟩

/-- Settles O38: `ERR` is OK at reset. -/
theorem resetHasLegalResponse : Obligations.ResetHasLegalResponse :=
  State.reset.legalResponse_resetRegs

/-- Settles O39: each of the two edges writes `RES` and `ERR`. -/
theorem resetOrCommandMakesResponseLegal : Obligations.ResetOrCommandMakesResponseLegal := by
  intro aux e s notIdle
  rcases edge_cases aux e s with ⟨-, runs⟩ | ⟨-, -, runs⟩ | ⟨noRst, noCommand, -⟩
  · exact ⟨_, runs, s.legalResponse_resetRegs⟩
  · exact ⟨_, runs, s.legalResponse_respond_F aux e.cmd⟩
  · simp [noRst, noCommand] at notIdle

/-- An edge writes a legal response or keeps the one it finds. -/
theorem legalResponse_of_edge {aux : Bool} {e : EdgeInput} {s t : State} (legal : s.LegalResponse)
    (stepped : edge aux e s = .next t) : t.LegalResponse := by
  rcases edge_cases aux e s with ⟨-, runs⟩ | ⟨-, -, runs⟩ | ⟨-, -, runs⟩
  all_goals cases runs.symm.trans stepped
  · exact s.legalResponse_resetRegs
  · exact s.legalResponse_respond_F aux e.cmd
  · exact legal

/-- Settles O37: using up an input touches no register, and an edge keeps the response legal. -/
theorem stepKeepsLegalResponse : Obligations.StepKeepsLegalResponse :=
  fun s _ legal => legalResponse_of_edge (s := s.dropInput) legal

end Sys2Proof.Machine
end

section
/-! PROOFS. Whole runs (70_reset_and_hazards.md R248): one edge shows a new response exactly when it accepts
a command, so a run shows those of its accepted commands, whatever the state it starts from. -/

namespace Sys2Proof.Machine

/-- What an edge shows as new: the response to the command it accepted, if it accepted one. -/
theorem newResponse_of_edge {aux : Bool} {e : EdgeInput} {s t : State}
    (stepped : edge aux e s = .next t) :
    t.newResponse = e.accepted.map fun cmd => Response.ofPair (F aux cmd) := by
  rcases edge_cases aux e s with ⟨rst, runs⟩ | ⟨noRst, command, runs⟩ | ⟨noRst, noCommand, runs⟩
  all_goals cases runs.symm.trans stepped
  · simp [EdgeInput.accepted, rst, State.newResponse, State.rspValid]
  · simp [EdgeInput.accepted, noRst, command, State.newResponse, State.rspValid, State.response,
      State.rspRes, State.rspErr]
  · simp [EdgeInput.accepted, noCommand, State.newResponse, State.rspValid]

theorem responses_succ {s t : State} (stepped : step s = .next t) (k : Nat) :
    responses (k + 1) s = t.newResponse.toList ++ responses k t := by
  cases shown : t.newResponse <;> simp [responses, statesAfter, stepped, shown]

/-- The responses over the pending inputs, by induction on the inputs. -/
theorem responses_eq_map_acceptedCommands (s : State) :
    responses s.inputs.length s =
      (acceptedCommands s.inputs).map fun cmd => Response.ofPair (F true cmd) := by
  induction pending : s.inputs generalizing s with
  | nil => rfl
  | cons e es ih =>
    obtain ⟨t, runs, left⟩ := exists_edge_eq_next true e { s with inputs := es }
    rw [List.length_cons, responses_succ ((step_of_inputs_cons pending).trans runs),
      newResponse_of_edge runs, ih t left, acceptedCommands, acceptedCommands, List.filterMap_cons]
    cases e.accepted <;> rfl

/-- Settles O36: the record of errors is empty when no accepted command's response is a fault. -/
theorem safeRunIffEveryCommandOk : Obligations.SafeRunIffEveryCommandOk := by
  intro s
  rw [SafeRun, errorsSeen, responses_eq_map_acceptedCommands, List.filterMap_eq_nil_iff,
    List.forall_mem_map]
  simp only [Response.errorCode_ofPair_eq_none_iff]

/-- Settles O34: on a safe run each response beside `ERR_OK` reads as its result. -/
theorem responsesAreFOfAcceptedCommands : Obligations.ResponsesAreFOfAcceptedCommands := by
  intro s
  refine ⟨responses_eq_map_acceptedCommands s, fun safe => ?_⟩
  have allOk := (safeRunIffEveryCommandOk s).mp safe
  refine ⟨allOk, (responses_eq_map_acceptedCommands s).trans ?_⟩
  exact List.map_congr_left fun cmd accepted => Response.ofPair_of_ok (allOk cmd accepted)

theorem EdgeInput.accepted_of_isIdle {e : EdgeInput} (idle : e.isIdle = true) : e.accepted = none := by
  obtain ⟨-, noCommand⟩ : e.rst = false ∧ e.cmdValid = false := by simpa [isIdle] using idle
  simp [accepted, noCommand]

theorem acceptedCommands_filter_not_isIdle (es : List EdgeInput) :
    acceptedCommands (es.filter fun e => !e.isIdle) = acceptedCommands es := by
  rw [acceptedCommands, List.filterMap_filter]
  apply List.filterMap_congr
  intro e _
  cases idle : e.isIdle with
  | true => exact (EdgeInput.accepted_of_isIdle idle).symm
  | false => rfl

/-- Settles O35: the responses are those of the accepted commands, and an idle edge accepts none. -/
theorem idleEdgesChangeNoResponse : Obligations.IdleEdgesChangeNoResponse := by
  intro s t
  rw [responses_eq_map_acceptedCommands, responses_eq_map_acceptedCommands,
    acceptedCommands_filter_not_isIdle]

end Sys2Proof.Machine
end

section
/-! PROOFS. Decoding what the encoder wrote (30_encoding.md R67, R70). -/

namespace Sys2Proof

/-- The encoder sets only bits that the command reads: each command's law of `Laws.Encoding`. -/
theorem encode_and_readMask : ∀ i : Instr, encode i &&& i.readMask = encode i
  | .setBit x pos => (Laws.Encoding.setBit x pos).2
  | .clearBit x pos => (Laws.Encoding.clearBit x pos).2
  | .toggleBit x pos => (Laws.Encoding.toggleBit x pos).2
  | .getBitStatus x pos => (Laws.Encoding.getBitStatus x pos).2
  | .isEven x => (Laws.Encoding.isEven x).2
  | .countSetBits x => (Laws.Encoding.countSetBits x).2
  | .isPowerOf2 x => (Laws.Encoding.isPowerOf2 x).2
  | .littleToBigEndian w => (Laws.Encoding.littleToBigEndian w).2
  | .setBits dest p n src => (Laws.Encoding.setBits dest p n src).2
  | .swapNibbles x => (Laws.Encoding.swapNibbles x).2
  | .formatBinary x => (Laws.Encoding.formatBinary x).2
  | .add x y => (Laws.Encoding.add x y).2
  | .subtract x y => (Laws.Encoding.subtract x y).2
  | .xorWithoutOperator x y => (Laws.Encoding.xorWithoutOperator x y).2
  | .sizeOfUsingBitwise => Laws.Encoding.sizeOfUsingBitwise.2
  | .multiplyByN x y => (Laws.Encoding.multiplyByN x y).2
  | .isNthBitOn w pos => (Laws.Encoding.isNthBitOn w pos).2
  | .swap x y => (Laws.Encoding.swap x y).2
  | .clearLsb x => (Laws.Encoding.clearLsb x).2
  | .findMsb x => (Laws.Encoding.findMsb x).2

/-- Settles O41: the encoding is its own read bits, which are all that the decoder looks at. -/
theorem decodeOfEncode : Obligations.DecodeOfEncode :=
  fun _ i wf => decodeWith_of_and_readMask wf (encode_and_readMask i)

/-- Settles O45: the decoder run on the seven words. -/
theorem sampleWordsDecode : Obligations.SampleWordsDecode := by
  unfold Obligations.SampleWordsDecode
  decide

end Sys2Proof
end

section
/-! PROOFS. The range of the narrow results (10_state.md R27; 95_test_vectors.md section 4, point 5). -/

namespace Sys2Proof.Machine

/-- The range that an operation code sets for its result. -/
def InNarrowRange (op : Byte) (r : Nat) : Prop :=
  (op ∈ [0x03#8, 0x04#8, 0x06#8, 0x16#8] → r ≤ 1) ∧
  (op = 0x05#8 → r ≤ 8) ∧ (op = 0x14#8 → r = 1) ∧ (op = 0x19#8 → r ≤ 7 ∨ r = 0xFF)

/-- A result of one bit is 0 or 1. -/
theorem Answer.pair_toNat_le_one {a : Answer} (oneBit : a.width ≤ 1) : a.pair.1.toNat ≤ 1 :=
  Nat.le_of_lt_succ (a.pair_toNat_lt.trans_le (Nat.pow_le_pow_right Nat.two_pos oneBit))

/-- Its precondition does not matter here: an error drives zeros (60_exceptions.md R201). -/
theorem Answer.provided_bit_toNat_le_one (ok b : Bool) :
    (Answer.provided ok (.bit b)).pair.1.toNat ≤ 1 :=
  Answer.pair_toNat_le_one (Answer.width_provided_le ok (.bit b))

/-- The top bit's position, or the sentinel for zero (43_aux_bit_ops.md R166). -/
theorem answer_findMsb_toNat (x : Byte) :
    (answer (.findMsb x)).pair.1.toNat ≤ 7 ∨ (answer (.findMsb x)).pair.1.toNat = 0xFF := by
  by_cases zero : x = 0x00#8
  · exact .inr (by rw [zero, answer_findMsb_zero]; rfl)
  · obtain ⟨k, found, inByte, -⟩ := answer_findMsb zero
    have onBus : (zext64 k).toNat ≤ 7 := by
      rw [zext64, BitVec.toNat_setWidth]
      exact (Nat.mod_le _ _).trans inByte
    exact .inl (by rw [found]; exact onBus)

/-- Every command keeps to the range of its own code; most codes set none. -/
theorem answer_inNarrowRange (i : Instr) : InNarrowRange i.opcode (answer i).pair.1.toNat := by
  cases i with
  | getBitStatus | isNthBitOn =>
    exact ⟨fun _ => Answer.provided_bit_toNat_le_one _ _, nofun, nofun, nofun⟩
  | isEven | isPowerOf2 => exact ⟨fun _ => Answer.pair_toNat_le_one le_rfl, nofun, nofun, nofun⟩
  | countSetBits x =>
    have count := (toNat_toBus_small_popcount x).trans_le (popcount_withoutLowestOne x).2
    exact ⟨by simp [Instr.opcode], fun _ => count, nofun, nofun⟩
  | sizeOfUsingBitwise => exact ⟨by simp [Instr.opcode], nofun, fun _ => rfl, nofun⟩
  | findMsb x => exact ⟨by simp [Instr.opcode], nofun, nofun, fun _ => answer_findMsb_toNat x⟩
  | _ => simp [InNarrowRange, Instr.opcode]

/-- Settles O47: a word answered OK is a command, whose code is the word's `OP`. -/
theorem narrowResultsAreInRange : Obligations.NarrowResultsAreInRange := by
  intro cmd ok
  rcases decodeWith_ok_or_reserved true cmd with ⟨-, i, decoded⟩ | ⟨-, refused⟩
  · have narrow := answer_inNarrowRange i
    rw [opcode_of_decodeWith decoded] at narrow
    have answered : F true cmd = (answer i).pair := by rw [F, answerWord, decoded]
    rwa [← answered] at narrow
  · rw [F_of_reserved refused] at ok
    exact absurd ok (by decide)

end Sys2Proof.Machine
end

section
/-! PROOFS. The lines of the twenty mnemonics (30_encoding.md R75): each assembles by its form in the
table, and each form takes exactly the arguments that fit. -/

namespace Sys2Proof.Machine

/-- `name` stands in the table with this form, and is none of the three other lines of R76. -/
structure HasForm (name : String) (form : List Arg → Option Instr) : Prop where
  found : forms.find? (fun f => f.1 == name) = some (name, form)
  other : name ≠ ".cmd" ∧ name ≠ "idle" ∧ name ≠ "reset"

section
variable {name : String} {f : Byte → Instr} {g : Byte → Byte → Instr}

theorem assembleWords_formX (h : HasForm name (formX f)) (args : List Arg) (e : EdgeInput) :
    assembleWords name args = some e ↔
      ∃ x : Byte, args = [.unsigned x.toNat] ∧ e = commandEdge (encode (f x)) := by
  simp only [assembleWords_eq_some_iff h.found h.other, formX_eq_some_iff, existsAndEq, and_true,
    commandEdge]

theorem assembleWords_formXY (h : HasForm name (formXY g)) (args : List Arg) (e : EdgeInput) :
    assembleWords name args = some e ↔
      ∃ x y : Byte, args = [.unsigned x.toNat, .unsigned y.toNat] ∧
        e = commandEdge (encode (g x y)) := by
  simp only [assembleWords_eq_some_iff h.found h.other, formXY_eq_some_iff, existsAndEq, and_true,
    commandEdge]

theorem assembleWords_formSigned (h : HasForm name (formSigned g)) (args : List Arg) (e : EdgeInput) :
    assembleWords name args = some e ↔
      ∃ a b x y, args = [a, b] ∧ a.asSignedByte = some x ∧ b.asSignedByte = some y ∧
        e = commandEdge (encode (g x y)) := by
  simp only [assembleWords_eq_some_iff h.found h.other, formSigned_eq_some_iff, existsAndEq,
    and_true, and_assoc, commandEdge]

end

/-- Settles O56: each of the twenty names with its form in the table, each form with what it takes. -/
theorem assemblerGivesCanonicalEncoding : Obligations.AssemblerGivesCanonicalEncoding := by
  unfold Obligations.AssemblerGivesCanonicalEncoding
  intro line byte word signed formOfX formOfXY formOfSigned
  have ofX {name f} : HasForm name (formX f) → formOfX name f := assembleWords_formX
  have ofXY {name f} : HasForm name (formXY f) → formOfXY name f := assembleWords_formXY
  have ofSigned {name f} (h : HasForm name (formSigned f)) : formOfSigned name f := by
    intro args e
    simp only [assembleWords_formSigned h, Arg.asSignedByte_eq_some_iff]
    rfl
  refine ⟨⟨ofXY ⟨rfl, by decide⟩, ofXY ⟨rfl, by decide⟩, ofXY ⟨rfl, by decide⟩,
      ofXY ⟨rfl, by decide⟩, ofX ⟨rfl, by decide⟩, ofX ⟨rfl, by decide⟩, ofX ⟨rfl, by decide⟩,
      ofX ⟨rfl, by decide⟩⟩,
    fun args e => ?word, fun args e => ?field,
    ⟨ofX ⟨rfl, by decide⟩, ofSigned ⟨rfl, by decide⟩, ofSigned ⟨rfl, by decide⟩,
      ofXY ⟨rfl, by decide⟩, ofXY ⟨rfl, by decide⟩, ofXY ⟨rfl, by decide⟩, ofX ⟨rfl, by decide⟩,
      ofX ⟨rfl, by decide⟩⟩,
    fun args e => ?none, fun args e => ?wordAndPos⟩
  case word =>
    rw [assembleWords_eq_some_iff (form := formW .littleToBigEndian) rfl (by decide)]
    simp only [formW_eq_some_iff, existsAndEq, and_true, word, line]
  case field =>
    rw [assembleWords_eq_some_iff (form := formField .setBits) rfl (by decide)]
    simp only [formField_eq_some_iff, existsAndEq, and_true, byte, line]
  case none =>
    rw [assembleWords_eq_some_iff (form := formNone .sizeOfUsingBitwise) rfl (by decide)]
    simp only [formNone_eq_some_iff, existsAndEq, and_true, line]
  case wordAndPos =>
    rw [assembleWords_eq_some_iff (form := formWPos .isNthBitOn) rfl (by decide)]
    simp only [formWPos_eq_some_iff, existsAndEq, and_true, word, byte, line]

end Sys2Proof.Machine
end
